-- ==== Sys2Proof/Word.lean ====
section
/-! DEFINITION. The word types of the machine (spec/00_scope.md R5, R6, R8). -/

namespace Sys2Proof

/-- An 8-bit unsigned quantity: a memory cell, a register, an operand byte (R5, R8). -/
abbrev Byte := BitVec 8

/-- A 9-bit unsigned quantity: the program counter and the fault-info register (R6, R38). -/
abbrev Word9 := BitVec 9

/-- `zext_9`: an 8-bit value as a 9-bit one (R10). -/
abbrev Byte.zext9 (b : Byte) : Word9 := BitVec.setWidth 9 b

end Sys2Proof
end

