-- ==== Sys2Proof/Config.lean ====
section
/-! DEFINITION. What is fixed for one machine: the memory size, the two opcode parameters the spec leaves open
(spec/00_scope.md R7), and the one value the spec leaves to the host (how an unprintable character is rendered). -/

namespace Sys2Proof

/-- The number of memory cells (R5, R50). -/
def Config.memSize : Nat := 256

/-- What a cell reads as before anything has written it: memory resets to 0x00 (R36, R200). -/
def Config.resetByte : Byte := 0x00

/-- The reset value of the stack pointer (R5, R25). -/
def Config.spReset : Byte := 0xF4

/-- The 23 opcodes of the dispatch table that are not parameters (spec/30_encoding.md R79). -/
def Config.fixedOpcodes : List Byte :=
  [0x01, 0x11, 0x45, 0x46, 0x47, 0x48, 0x50, 0x54, 0x55, 0x56, 0x69, 0x82,
   0xA0, 0xA1, 0xA2, 0xA3, 0xA4, 0xA7, 0xA8, 0xAA, 0xAB, 0xAC, 0xAD]

/-- The two opcode values the spec leaves open as named parameters of the model (R7). -/
structure OpcodeParams where
  /-- `OP_ADDI` -/
  opAddi : Byte
  /-- `OP_PRAST` -/
  opPrast : Byte
  deriving DecidableEq, Repr

/-- The decoder constraints on the two parameters (spec/30_encoding.md R78): `op[7:6]` is the operand count, `op[4]`
is 0, and neither equals another opcode of the table. -/
abbrev OpcodeParams.ok (p : OpcodeParams) : Prop :=
  p.opAddi.extractLsb' 6 2 = 0b10#2 ∧ p.opAddi.getLsbD 4 = false ∧
  p.opPrast.extractLsb' 6 2 = 0b01#2 ∧ p.opPrast.getLsbD 4 = false ∧
  p.opAddi ∉ Config.fixedOpcodes ∧ p.opPrast ∉ Config.fixedOpcodes ∧ p.opAddi ≠ p.opPrast

/-- The spec's defaults, `OP_ADDI = 0xAF` and `OP_PRAST = 0x49` (R7, R78).
DESIGN CHOICE (the spec's own, D13 and D14), unsafe: see notes/assumptions/1.md. -/
def Config.params : OpcodeParams := { opAddi := 0xAF, opPrast := 0x49 }

/-- How the host renders a character it need not print as itself: a control code, or a code point of 128 or more
(spec/92_eei_decisions.md D17, spec/93_implementation_defined.md U8). A free value: nothing constrains it.
See notes/assumptions/12.md. -/
opaque Config.renderUnprintable : Byte → String

end Sys2Proof
end

