-- ==== Sys2Proof/Syntax.lean ====
section
/-! DEFINITION. The instructions: one constructor per row of spec/opcode_table.json, in the order of the dispatch table
(spec/30_encoding.md R79). -/

namespace Sys2Proof

/-- An instruction with its operand bytes as they stand in memory. `a` and `b` are register operands and `imm` is an
immediate operand (R76). A register operand is kept as the byte it is, because a byte of 8 or more is a form the spec
gives an effect: it raises InvalidRegister (R77). -/
inductive Instr where
  /-- HLT (R101) -/
  | hlt
  /-- RET (R156) -/
  | ret
  /-- PUSH (R153) -/
  | push (a : Byte)
  /-- POP (R154) -/
  | pop (a : Byte)
  /-- PRN (R141) -/
  | prn (a : Byte)
  /-- PRA (R142) -/
  | pra (a : Byte)
  /-- PRAST (R143) -/
  | prast (a : Byte)
  /-- CALL (R155) -/
  | call (a : Byte)
  /-- JMP (R170) -/
  | jmp (a : Byte)
  /-- JEQ (R171) -/
  | jeq (a : Byte)
  /-- JNE (R172) -/
  | jne (a : Byte)
  /-- NOT (R119) -/
  | not (a : Byte)
  /-- LDI (R140) -/
  | ldi (a imm : Byte)
  /-- ADD (R111) -/
  | add (a b : Byte)
  /-- SUB (R112) -/
  | sub (a b : Byte)
  /-- MUL (R113) -/
  | mul (a b : Byte)
  /-- DIV (R114) -/
  | div (a b : Byte)
  /-- MOD (R115) -/
  | mod (a b : Byte)
  /-- CMP (R123) -/
  | cmp (a b : Byte)
  /-- AND (R116) -/
  | and (a b : Byte)
  /-- OR (R117) -/
  | or (a b : Byte)
  /-- XOR (R118) -/
  | xor (a b : Byte)
  /-- SHL (R120) -/
  | shl (a b : Byte)
  /-- SHR (R121) -/
  | shr (a b : Byte)
  /-- ADDI (R122) -/
  | addi (a imm : Byte)
  deriving DecidableEq, Repr

end Sys2Proof
end

