-- ==== Sys2Proof/WellFormed.lean ====
section
/-! DEFINITION. Which instructions are well formed: every register operand names a register (spec/30_encoding.md R76,
R77). An instruction that is not still has a meaning: it raises InvalidRegister (R96). -/

namespace Sys2Proof

/-- The register operands of an instruction in operand order: the operands marked `reg` in the dispatch table (R79).
Only LDI and ADDI take an immediate, as their second operand (R76). -/
def Instr.regOperands : Instr → List Byte
  | .hlt | .ret => []
  | .push a | .pop a | .prn a | .pra a | .prast a | .call a | .jmp a | .jeq a | .jne a | .not a => [a]
  | .ldi a _ | .addi a _ => [a]
  | .add a b | .sub a b | .mul a b | .div a b | .mod a b | .cmp a b => [a, b]
  | .and a b | .or a b | .xor a b | .shl a b | .shr a b => [a, b]

/-- A register operand byte that names one of R0 to R7 (R76). -/
def namesRegister (b : Byte) : Bool := decide (b.toNat < 8)

/-- Every register operand names a register (R77). An immediate may hold any value (R82). -/
def Instr.wellFormed (i : Instr) : Bool := i.regOperands.all namesRegister

end Sys2Proof
end

