-- ==== Sys2Proof/Decode.lean ====
section
/-! DEFINITION. The decoder, total on any bytes, and after it the encoder (spec/30_encoding.md). -/

namespace Sys2Proof

/-- `operand_count = op[7:6]` (R71; spec/90_conflicts.md C1). -/
def operandCount (op : Byte) : Nat := (op.extractLsb' 6 2).toNat

/-- `size(op) = op[7:6] + 1` (R72). -/
def instrSize (op : Byte) : Nat := operandCount op + 1

/-- `sets_pc = (op[4] == 1)` (R73). -/
def setsPc (op : Byte) : Bool := op.getLsbD 4

/-- A row of the dispatch table: which instruction an opcode selects, by the operand bytes it takes (R79). -/
inductive Handler where
  | noOperand (i : Instr)
  | oneOperand (mk : Byte → Instr)
  | twoOperands (mk : Byte → Byte → Instr)

/-- The dispatch table: exactly these 25 rows (R79). -/
def dispatchTable (p : OpcodeParams) : List (Byte × Handler) :=
  [(0b00000001, .noOperand .hlt),
   (0b00010001, .noOperand .ret),
   (0b01000101, .oneOperand .push),
   (0b01000110, .oneOperand .pop),
   (0b01000111, .oneOperand .prn),
   (0b01001000, .oneOperand .pra),
   (p.opPrast, .oneOperand .prast),
   (0b01010000, .oneOperand .call),
   (0b01010100, .oneOperand .jmp),
   (0b01010101, .oneOperand .jeq),
   (0b01010110, .oneOperand .jne),
   (0b01101001, .oneOperand .not),
   (0b10000010, .twoOperands .ldi),
   (0b10100000, .twoOperands .add),
   (0b10100001, .twoOperands .sub),
   (0b10100010, .twoOperands .mul),
   (0b10100011, .twoOperands .div),
   (0b10100100, .twoOperands .mod),
   (0b10100111, .twoOperands .cmp),
   (0b10101000, .twoOperands .and),
   (0b10101010, .twoOperands .or),
   (0b10101011, .twoOperands .xor),
   (0b10101100, .twoOperands .shl),
   (0b10101101, .twoOperands .shr),
   (p.opAddi, .twoOperands .addi)]

/-- The handler of the row whose opcode equals a byte in all 8 bits; none where no row's does (R79). -/
def findHandler : List (Byte × Handler) → Byte → Option Handler
  | [], _ => none
  | (k, h) :: rows, op => if op = k then some h else findHandler rows op

/-- The handler of an opcode; none for an illegal opcode (R79, R80). -/
def lookupHandler (p : OpcodeParams) (op : Byte) : Option Handler := findHandler (dispatchTable p) op

/-- Why the decoder rejects some bytes. -/
inductive DecodeError where
  /-- There is no opcode byte to decode (R92). -/
  | noOpcode
  /-- The opcode is in no row of the dispatch table (R80, R94). -/
  | unknownOpcode (op : Byte)
  /-- Operand byte `k` (1 or 2) is not there (R95). -/
  | missingOperand (k : Nat)
  deriving DecidableEq, Repr

/-- Takes a handler's operand bytes, operand 1 before operand 2 (R70, R95), and leaves the bytes that follow. -/
def Handler.takeOperands : Handler → List Byte → Except DecodeError (Instr × List Byte)
  | .noOperand i, rest => .ok (i, rest)
  | .oneOperand _, [] => .error (.missingOperand 1)
  | .oneOperand mk, a :: rest => .ok (mk a, rest)
  | .twoOperands _, [] => .error (.missingOperand 1)
  | .twoOperands _, [_] => .error (.missingOperand 2)
  | .twoOperands mk, a :: b :: rest => .ok (mk a b, rest)

/-- Decodes the instruction at the head of some bytes: lookup first, then exactly its operand bytes (R83, R94, R95). -/
def decode (p : OpcodeParams) : List Byte → Except DecodeError (Instr × List Byte)
  | [] => .error .noOpcode
  | op :: rest =>
    match lookupHandler p op with
    | none => .error (.unknownOpcode op)
    | some h => h.takeOperands rest

/-- The opcode byte of an instruction (R79). -/
def Instr.opcode (p : OpcodeParams) : Instr → Byte
  | .hlt => 0x01
  | .ret => 0x11
  | .push _ => 0x45
  | .pop _ => 0x46
  | .prn _ => 0x47
  | .pra _ => 0x48
  | .prast _ => p.opPrast
  | .call _ => 0x50
  | .jmp _ => 0x54
  | .jeq _ => 0x55
  | .jne _ => 0x56
  | .not _ => 0x69
  | .ldi _ _ => 0x82
  | .add _ _ => 0xA0
  | .sub _ _ => 0xA1
  | .mul _ _ => 0xA2
  | .div _ _ => 0xA3
  | .mod _ _ => 0xA4
  | .cmp _ _ => 0xA7
  | .and _ _ => 0xA8
  | .or _ _ => 0xAA
  | .xor _ _ => 0xAB
  | .shl _ _ => 0xAC
  | .shr _ _ => 0xAD
  | .addi _ _ => p.opAddi

/-- The size of an instruction, decoded from its opcode byte (R72). -/
def Instr.size (p : OpcodeParams) (i : Instr) : Nat := instrSize (i.opcode p)

/-- The operand bytes of an instruction, operand 1 first (R70, R76). -/
def Instr.operands : Instr → List Byte
  | .hlt | .ret => []
  | .push a | .pop a | .prn a | .pra a | .prast a | .call a | .jmp a | .jeq a | .jne a | .not a => [a]
  | .ldi a imm | .addi a imm => [a, imm]
  | .add a b | .sub a b | .mul a b | .div a b | .mod a b | .cmp a b => [a, b]
  | .and a b | .or a b | .xor a b | .shl a b | .shr a b => [a, b]

/-- The bytes of an instruction at increasing addresses: its opcode, then its operands (R70). -/
def encode (p : OpcodeParams) (i : Instr) : List Byte := i.opcode p :: i.operands

/-- The bytes of the longest instruction (R72: 1, 2 or 3 for every defined instruction). -/
def maxInstrBytes : Nat := 3

/-- The first three bytes of a table word of `nbits` bits, the lowest byte first; every bit above `nbits` is 0. -/
def tableWordBytes (nbits w : Nat) : List Byte :=
  let v := w % 2 ^ nbits
  [BitVec.ofNat 8 v, BitVec.ofNat 8 (v / 2 ^ 8), BitVec.ofNat 8 (v / 2 ^ 16)]

/-- The instruction the decoder reads from an instruction whose bits are `w`, numbered as spec/opcode_table.json
numbers them. -/
def decodeTableWord (nbits w : Nat) : Option Instr :=
  match decode Config.params (tableWordBytes nbits w) with
  | .ok (i, _) => some i
  | .error _ => none

end Sys2Proof
end

