-- ==== Sys2Proof/Machine/State.lean ====
section
/-! DEFINITION. The state of the core, as plain data, and its value after reset (spec/10_state.md,
spec/70_reset_and_hazards.md R200). -/

namespace Sys2Proof.Machine

/-- The eight general registers (R20). R7 is the stack pointer (R22); R5 and R6 are IM and IS by convention only (R23). -/
inductive Reg where
  | r0 | r1 | r2 | r3 | r4 | r5 | r6 | r7
  deriving DecidableEq, Repr

/-- The index by which an operand byte names a register (R20, R76). -/
def Reg.index : Reg → Nat
  | .r0 => 0 | .r1 => 1 | .r2 => 2 | .r3 => 3 | .r4 => 4 | .r5 => 5 | .r6 => 6 | .r7 => 7

/-- The contents of the general registers, 8 bits each (R20). None is hardwired and none aliases another (R24). -/
structure RegFile where
  r0 : Byte
  r1 : Byte
  r2 : Byte
  r3 : Byte
  r4 : Byte
  r5 : Byte
  r6 : Byte
  r7 : Byte
  deriving DecidableEq, Repr

/-- The run state (R34). -/
inductive RunState where
  | running | halted | faulted
  deriving DecidableEq, Repr

/-- The values of the fault-cause register (R35). -/
inductive FaultCause where
  /-- The reset value; the state is not Faulted. -/
  | noFault
  /-- The fetched opcode has no handler (R181). -/
  | unknownOpcode
  /-- Division or modulo by zero (R182). -/
  | arithmeticFault
  /-- A push at SP = 0 or a pop at SP = 255 (R183). -/
  | stackExhausted
  /-- A fetch at, or a CALL return address of, 256 or more (R184). -/
  | outOfBounds
  /-- A register operand byte of 8 or more (R187). -/
  | invalidRegister
  deriving DecidableEq, Repr

/-- The numeric codes of the fault causes (R35, R180). -/
def FaultCause.code : FaultCause → Nat
  | .noFault => 0
  | .unknownOpcode => 1
  | .arithmeticFault => 2
  | .stackExhausted => 3
  | .outOfBounds => 4
  | .invalidRegister => 5

/-- The kinds of output event (R41). -/
inductive OutputKind where
  | dec | chr | stars
  deriving DecidableEq, Repr

/-- One console-output action, sent to the host on the output port (R41). -/
structure OutputEvent where
  kind : OutputKind
  value : Byte
  deriving DecidableEq, Repr

/-- The memory cells (R50) as a list of (address, byte) in one canonical form, `Memory.wf`: addresses strictly rising
and below 256, and no cell listed that holds `Config.resetByte`, which is what an unlisted address reads as. -/
abbrev Memory := List Host.Cell

/-- Everything the spec gives the machine (R20 to R41, R200). -/
structure State where
  /-- The general registers (R20). -/
  regs : RegFile
  /-- The flag register FL, `00000LGE` (R26). -/
  fl : Byte
  /-- The program counter, 9 bits (R6, R30). -/
  pc : Word9
  /-- The instruction register (R32). -/
  ir : Byte
  /-- The run state (R34). -/
  run : RunState
  /-- The fault-cause register (R35). -/
  faultCause : FaultCause
  /-- The fault-info register, 9 bits (R38). -/
  faultInfo : Word9
  /-- The memory cells (R36). -/
  mem : Memory
  /-- The output events the core has sent, oldest first (R41, R102, R200). -/
  out : List OutputEvent
  deriving DecidableEq, Repr

/-- Why a step stops without a next state: never, so this type has no constructor. The spec's own faults are states of
the machine (R185): the step that raises one answers a NEXT state whose run state is Faulted
(see notes/assumptions/8.md). -/
inductive Fault where
  deriving DecidableEq, Repr

/-- Why the model gives an instruction no meaning. -/
inductive Refusal where
  /-- Raised by `exec` for an instruction whose meaning is not written yet; safe. No arm raises it. -/
  | notModelled (mnemonic : String)
  deriving DecidableEq, Repr

/-- The machine right after reset (R200). -/
def State.reset : State where
  regs := { r0 := 0, r1 := 0, r2 := 0, r3 := 0, r4 := 0, r5 := 0, r6 := 0, r7 := Config.spReset }
  fl := 0x00
  pc := 0
  ir := 0x00
  run := .running
  faultCause := .noFault
  faultInfo := 0
  mem := []
  out := []

end Sys2Proof.Machine
end

