-- ==== Sys2Proof/Machine/Ops.lean ====
section
/-! DEFINITION. The named operations over registers, memory, the output port and the run state; entering a fault; the
dispatcher's fetch and advance (spec/00_scope.md R10, spec/20_memory.md, spec/40_dispatch.md, spec/60_exceptions.md). -/

namespace Sys2Proof.Machine

/-- What a step, or an instruction's meaning, answers. -/
abbrev Result := Host.Outcome State Fault Refusal

/-! ### Registers -/

/-- `R[i]` (R10, R20). -/
def RegFile.get (f : RegFile) : Reg → Byte
  | .r0 => f.r0
  | .r1 => f.r1
  | .r2 => f.r2
  | .r3 => f.r3
  | .r4 => f.r4
  | .r5 => f.r5
  | .r6 => f.r6
  | .r7 => f.r7

/-- `R[i] <- v` on the register file (R10). -/
def RegFile.set (f : RegFile) (r : Reg) (v : Byte) : RegFile :=
  match r with
  | .r0 => { f with r0 := v }
  | .r1 => { f with r1 := v }
  | .r2 => { f with r2 := v }
  | .r3 => { f with r3 := v }
  | .r4 => { f with r4 := v }
  | .r5 => { f with r5 := v }
  | .r6 => { f with r6 := v }
  | .r7 => { f with r7 := v }

/-- `R[i]` (R10). -/
def State.reg (s : State) (r : Reg) : Byte := s.regs.get r

/-- `R[i] <- v` (R10, R21): the value stored is 8 bits, for every register. -/
def State.setReg (s : State) (r : Reg) (v : Byte) : State := { s with regs := s.regs.set r v }

/-- The stack pointer is R7 (R22). -/
def State.sp (s : State) : Byte := s.reg .r7

/-- `SP <- v` (R22). -/
def State.setSp (s : State) (v : Byte) : State := s.setReg .r7 v

/-- `pc <- target` (R10). -/
def State.setPc (s : State) (target : Word9) : State := { s with pc := target }

/-! ### Memory -/

/-- The cell at an address: the byte listed for it, or the reset byte (R36, R56). -/
def Memory.read : Memory → Nat → Byte
  | [], _ => Config.resetByte
  | (k, v) :: m, a => if k = a then v else Memory.read m a

/-- The memory with nothing listed at an address. -/
def Memory.erase (m : Memory) (a : Nat) : Memory := m.filter fun c => c.1 != a

/-- The memory with a cell listed before the first larger address. -/
def Memory.insert : Memory → Nat → Byte → Memory
  | [], a, v => [(a, v)]
  | (k, w) :: m, a, v => if a < k then (a, v) :: (k, w) :: m else (k, w) :: Memory.insert m a v

/-- Stores a byte at an address and at no other (R56), keeping the canonical form: a reset byte is not listed. -/
def Memory.write (m : Memory) (a : Nat) (v : Byte) : Memory :=
  if v = Config.resetByte then m.erase a else (m.erase a).insert a v

/-- The canonical form: addresses strictly rising and below 256 (R51), and no listed byte is the reset byte. -/
abbrev Memory.wf (m : Memory) : Prop :=
  m.Pairwise (fun c d => c.1 < d.1) ∧ ∀ c ∈ m, c.1 < Config.memSize ∧ c.2 ≠ Config.resetByte

/-- Stores bytes at consecutive addresses, the first at `a` (R204). -/
def Memory.writeFrom : Memory → Nat → List Byte → Memory
  | m, _, [] => m
  | m, a, b :: bs => Memory.writeFrom (m.write a b) (a + 1) bs

/-- `MemRead(addr, 1)` (R10, R11, R40). -/
def State.memRead (s : State) (a : Byte) : Byte := Memory.read s.mem a.toNat

/-- `MemWrite(addr, 1, v)` (R10, R11, R40). -/
def State.memWrite (s : State) (a v : Byte) : State := { s with mem := Memory.write s.mem a.toNat v }

/-! ### Output port -/

/-- `Output(kind, v)`: sends one event (R10, R41). -/
def State.output (s : State) (kind : OutputKind) (v : Byte) : State := { s with out := s.out ++ [⟨kind, v⟩] }

/-! ### Run state and faults -/

/-- `halt` (R10, R34). -/
def State.halt (s : State) : State := { s with run := .halted }

/-- `raise F(info)`: the fault entry (R185). It changes nothing else: the fault checks of every rule stand before its
first write (R186). No instruction returns from a fault (R190), so there is no return operation beside it. -/
def State.raise (s : State) (cause : FaultCause) (info : Word9) : State :=
  { s with run := .faulted, faultCause := cause, faultInfo := info }

/-! ### The dispatcher -/

/-- The bytes that stand in memory from an address on, at most `n` of them and none past address 255 (R53). -/
def Memory.bytesFrom (m : Memory) : Nat → Nat → List Byte
  | 0, _ => []
  | n + 1, a => if a < Config.memSize then m.read a :: Memory.bytesFrom m n (a + 1) else []

/-- The bytes the decoder may take for the instruction at PC (R70, R92, R95). A read has no side effect (R56), so it
does not matter that it takes only the first of them for a shorter instruction. -/
def State.fetchWindow (s : State) : List Byte := Memory.bytesFrom s.mem maxInstrBytes s.pc.toNat

/-- `IR <- MemRead(PC, 1)` (R32, R92). -/
def State.fetchOpcode (s : State) : State := { s with ir := Memory.read s.mem s.pc.toNat }

/-- The fault the dispatcher raises when the bytes at PC are no instruction (R92, R94, R95). IR holds the opcode, unless
there was none to fetch (R32, R186). -/
def State.raiseDecodeError (s : State) : DecodeError → State
  | .noOpcode => s.raise .outOfBounds s.pc
  | .unknownOpcode _ => s.fetchOpcode.raise .unknownOpcode 0
  | .missingOperand k => s.fetchOpcode.raise .outOfBounds (BitVec.ofNat 9 (s.pc.toNat + k))

/-- The address after an instruction at PC, exact: PC + size (R98, R155). -/
def State.addressAfter (s : State) (i : Instr) : Nat := s.pc.toNat + i.size Config.params

/-- The dispatcher's advance, `PC <- PC + size`, in 9 bits (R98). -/
def State.advance (s : State) (i : Instr) : State := s.setPc (BitVec.ofNat 9 (s.addressAfter i))

/-- The advance phase: it moves PC past the instruction, unless the opcode's sets_pc bit says that the handler has set
PC itself (R98, R99). -/
def State.finish (s : State) (i : Instr) : State :=
  if setsPc (i.opcode Config.params) then s else s.advance i

/-- The memory with bytes stored from an address on, as far as there are cells for them (R51). -/
def Memory.place (m : Memory) (a : Nat) (bs : List Byte) : Memory := m.writeFrom a (bs.take (Config.memSize - a))

/-- In Halted or Faulted the core takes no step: the state stays as it is (R91, R100).
DESIGN CHOICE: see notes/assumptions/9.md. -/
def State.stayStopped (s : State) : Result := .next s

end Sys2Proof.Machine
end

