-- ==== Sys2Proof/Machine/Flags.lean ====
section
/-! DEFINITION. The flag register: its layout, what a compare leaves in it, and its readers (spec/10_state.md R26 to R29,
spec/41_alu.md R123). -/

namespace Sys2Proof.Machine

/-- Bit 0, E: the last CMP found its operands equal (R26). -/
def flagE : Byte := 0b00000001

/-- Bit 1, G: the last CMP found its first operand greater (R26). -/
def flagG : Byte := 0b00000010

/-- Bit 2, L: the last CMP found its first operand less (R26). -/
def flagL : Byte := 0b00000100

/-- The value a compare leaves in FL: unsigned, and exactly one of E, G and L (R123). -/
def compareFlags (x y : Byte) : Byte :=
  if x = y then flagE else if y.toNat < x.toNat then flagG else flagL

/-- `FL <- v`; bits 7:3 are hardwired 0 (R10, R26). -/
def State.setFl (s : State) (v : Byte) : State := { s with fl := v &&& 0b00000111 }

/-- `FL[0]`, the one flag an instruction reads (R28). -/
def State.equalFlag (s : State) : Bool := s.fl.getLsbD 0

end Sys2Proof.Machine
end

