-- ==== Sys2Proof/Machine/Operands.lean ====
section
/-! DEFINITION. The operand forms: a register operand, checked before the execute phase, and two of them
(spec/30_encoding.md R76, R77; spec/40_dispatch.md R96). An immediate operand is its byte, used as it is (R76). -/

namespace Sys2Proof.Machine

/-- The register an operand byte names; none for a byte of 8 or more (R76, R77). The byte is not masked. -/
def Reg.ofByte (b : Byte) : Option Reg :=
  match b.toNat with
  | 0 => some .r0
  | 1 => some .r1
  | 2 => some .r2
  | 3 => some .r3
  | 4 => some .r4
  | 5 => some .r5
  | 6 => some .r6
  | 7 => some .r7
  | _ => none

/-- The register check of one register operand, then the handler; a byte of 8 or more raises InvalidRegister with its
value (R96, R187). -/
def withReg (a : Byte) (s : State) (handler : Reg → Result) : Result :=
  match Reg.ofByte a with
  | some r => handler r
  | none => .next (s.raise .invalidRegister a.zext9)

/-- The register check of two register operands, operand 1 first, then the handler (R96). -/
def withTwoRegs (a b : Byte) (s : State) (handler : Reg → Reg → Result) : Result :=
  withReg a s fun ra => withReg b s fun rb => handler ra rb

end Sys2Proof.Machine
end

