-- ==== Sys2Proof/Machine/Alu.lean ====
section
/-! DEFINITION. The ALU instructions (spec/41_alu.md). -/

namespace Sys2Proof.Machine

/-- The common form of a two-register operation `R[a] <- f(R[a], R[b])`: both sources are read before the write, the
result goes to operand 1's register, and FL stays (R110, R124). -/
def twoRegAlu (i : Instr) (a b : Byte) (f : Byte → Byte → Byte) (s : State) : Result :=
  withTwoRegs a b s fun ra rb => .next ((s.setReg ra (f (s.reg ra) (s.reg rb))).finish i)

/-- The common form of DIV and MOD: a divisor of 0 raises ArithmeticFault before anything is written (R114, R115,
R182). -/
def twoRegDivide (i : Instr) (a b : Byte) (f : Byte → Byte → Byte) (s : State) : Result :=
  withTwoRegs a b s fun ra rb =>
    if s.reg rb = 0 then .next (s.raise .arithmeticFault 0)
    else .next ((s.setReg ra (f (s.reg ra) (s.reg rb))).finish i)

/-- ADD (R111). -/
def execAdd (a b : Byte) (s : State) : Result := twoRegAlu (.add a b) a b (fun x y => x + y) s

/-- SUB (R112). -/
def execSub (a b : Byte) (s : State) : Result := twoRegAlu (.sub a b) a b (fun x y => x - y) s

/-- MUL (R113). -/
def execMul (a b : Byte) (s : State) : Result := twoRegAlu (.mul a b) a b (fun x y => x * y) s

/-- DIV: the unsigned quotient, rounded down (R114). -/
def execDiv (a b : Byte) (s : State) : Result := twoRegDivide (.div a b) a b (fun x y => x.udiv y) s

/-- MOD: the unsigned remainder (R115). -/
def execMod (a b : Byte) (s : State) : Result := twoRegDivide (.mod a b) a b (fun x y => x.umod y) s

/-- AND (R116). -/
def execAnd (a b : Byte) (s : State) : Result := twoRegAlu (.and a b) a b (fun x y => x &&& y) s

/-- OR (R117). -/
def execOr (a b : Byte) (s : State) : Result := twoRegAlu (.or a b) a b (fun x y => x ||| y) s

/-- XOR (R118). -/
def execXor (a b : Byte) (s : State) : Result := twoRegAlu (.xor a b) a b (fun x y => x ^^^ y) s

/-- NOT (R119). -/
def execNot (a : Byte) (s : State) : Result :=
  withReg a s fun ra => .next ((s.setReg ra (~~~ s.reg ra)).finish (.not a))

/-- SHL: the shift amount is used whole, not masked (R120). -/
def execShl (a b : Byte) (s : State) : Result := twoRegAlu (.shl a b) a b (fun x y => x <<< y.toNat) s

/-- SHR: zeros shift in, and the shift amount is used whole (R121). -/
def execShr (a b : Byte) (s : State) : Result := twoRegAlu (.shr a b) a b (fun x y => x >>> y.toNat) s

/-- ADDI: no register check applies to the immediate (R122). -/
def execAddi (a imm : Byte) (s : State) : Result :=
  withReg a s fun ra => .next ((s.setReg ra (s.reg ra + imm)).finish (.addi a imm))

/-- CMP: it replaces all of FL and writes no register (R123). -/
def execCmp (a b : Byte) (s : State) : Result :=
  withTwoRegs a b s fun ra rb => .next ((s.setFl (compareFlags (s.reg ra) (s.reg rb))).finish (.cmp a b))

end Sys2Proof.Machine
end

