-- ==== Sys2Proof/Machine/Branch.lean ====
section
/-! DEFINITION. Jumps and conditional branches (spec/44_branch.md). -/

namespace Sys2Proof.Machine

/-- The common form of a jump: to the address in a register where it is taken, else past the instruction by its own
decoded size (R170, R173). -/
def jumpIf (taken : Bool) (i : Instr) (a : Byte) (s : State) : Result :=
  withReg a s fun ra => .next ((if taken then s.setPc (s.reg ra).zext9 else s.advance i).finish i)

/-- JMP (R170). -/
def execJmp (a : Byte) (s : State) : Result := jumpIf true (.jmp a) a s

/-- JEQ: taken where E is set (R171). -/
def execJeq (a : Byte) (s : State) : Result := jumpIf s.equalFlag (.jeq a) a s

/-- JNE: taken where E is clear (R172). -/
def execJne (a : Byte) (s : State) : Result := jumpIf (!s.equalFlag) (.jne a) a s

end Sys2Proof.Machine
end

