-- ==== Sys2Proof/Machine/Control.lean ====
section
/-! DEFINITION. HLT (spec/40_dispatch.md R101). -/

namespace Sys2Proof.Machine

/-- HLT: the run ends in Halted, and the dispatcher still advances PC (R101). -/
def execHlt (s : State) : Result := .next (s.halt.finish .hlt)

end Sys2Proof.Machine
end

