-- ==== Sys2Proof/Machine/LoadOutput.lean ====
section
/-! DEFINITION. Load-immediate and console output (spec/42_load_output.md). -/

namespace Sys2Proof.Machine

/-- LDI (R140). -/
def execLdi (a imm : Byte) (s : State) : Result :=
  withReg a s fun ra => .next ((s.setReg ra imm).finish (.ldi a imm))

/-- The common form of the print instructions: one event with a register's value (R41). -/
def printReg (i : Instr) (kind : OutputKind) (a : Byte) (s : State) : Result :=
  withReg a s fun ra => .next ((s.output kind (s.reg ra)).finish i)

/-- PRN (R141). -/
def execPrn (a : Byte) (s : State) : Result := printReg (.prn a) .dec a s

/-- PRA (R142). -/
def execPra (a : Byte) (s : State) : Result := printReg (.pra a) .chr a s

/-- PRAST (R143). -/
def execPrast (a : Byte) (s : State) : Result := printReg (.prast a) .stars a s

end Sys2Proof.Machine
end

