-- ==== Sys2Proof/Machine/Stack.lean ====
section
/-! DEFINITION. The stack engine and its instructions (spec/43_stack.md). -/

namespace Sys2Proof.Machine

/-- `push(v)`: decrement SP, then write at the new SP; none where SP is 0, before anything changes (R150, R152). -/
def State.push (s : State) (v : Byte) : Option State :=
  if s.sp = 0 then none else some ((s.setSp (s.sp - 1)).memWrite (s.sp - 1) v)

/-- `pop()`: read at SP, then increment SP; none where SP is 255, before anything changes (R151, R152). -/
def State.pop (s : State) : Option (Byte × State) :=
  if s.sp = 255 then none else some (s.memRead s.sp, s.setSp (s.sp + 1))

/-- The stack fault: nothing changes but the fault entry (R152, R183, R186). -/
def State.raiseStackExhausted (s : State) : Result := .next (s.raise .stackExhausted 0)

/-- PUSH: the value is read before SP changes (R153). -/
def execPush (a : Byte) (s : State) : Result :=
  withReg a s fun ra =>
    match s.push (s.reg ra) with
    | some t => .next (t.finish (.push a))
    | none => s.raiseStackExhausted

/-- POP: the register is written after SP's increment, so POP R7 leaves the popped value in SP (R154). -/
def execPop (a : Byte) (s : State) : Result :=
  withReg a s fun ra =>
    match s.pop with
    | some (v, t) => .next ((t.setReg ra v).finish (.pop a))
    | none => s.raiseStackExhausted

/-- CALL: the target is read before the push; a return address of 256 or more is checked before SP (R155). -/
def execCall (a : Byte) (s : State) : Result :=
  withReg a s fun ra =>
    let ret := s.addressAfter (.call a)
    if Config.memSize ≤ ret then .next (s.raise .outOfBounds (BitVec.ofNat 9 ret))
    else
      match s.push (BitVec.ofNat 8 ret) with
      | some t => .next ((t.setPc (s.reg ra).zext9).finish (.call a))
      | none => s.raiseStackExhausted

/-- RET (R156). -/
def execRet (s : State) : Result :=
  match s.pop with
  | some (v, t) => .next ((t.setPc v.zext9).finish .ret)
  | none => s.raiseStackExhausted

end Sys2Proof.Machine
end

