-- ==== Sys2Proof/Machine/Step.lean ====
section
/-! DEFINITION. One step of the core: one whole instruction (spec/40_dispatch.md R90 to R98). -/

namespace Sys2Proof.Machine

/-- One step under any choice of the two opcode parameters (R7): fetch, decode, lookup and operand fetch (R92 to R95),
then the instruction's meaning (R96 to R98). It happens only while the run state is Running (R91). -/
def stepWith (p : OpcodeParams) (s : State) : Host.Outcome State Fault Refusal :=
  match s.run with
  | .running =>
    match decode p s.fetchWindow with
    | .ok (i, _) => exec i s.fetchOpcode
    | .error e => .next (s.raiseDecodeError e)
  | .halted => s.stayStopped
  | .faulted => s.stayStopped

/-- One step of the core, with the spec's default opcode parameters (R7, R90). -/
def step (s : State) : Host.Outcome State Fault Refusal := stepWith Config.params s

/-- The state with an instruction word stored where the next step fetches it, at PC, and the core Running, so that the
next step runs it. -/
def State.withFetchWord (s : State) (nbits w : Nat) : State :=
  { s with run := .running, mem := Memory.place s.mem s.pc.toNat (tableWordBytes nbits w) }

end Sys2Proof.Machine
end

