-- ==== Sys2Proof/Machine/HostPort.lean ====
section
/-! DEFINITION. The core's interfaces to the host: reset and load, the status port, and how the host renders output
events (spec/10_state.md R41 to R43, spec/70_reset_and_hazards.md R200 to R204). The host acts before the first step and
reads after the last one; nothing here is part of a step (R42, R90). -/

namespace Sys2Proof.Machine

/-- `reset`: the same effect from any state (R42, R201). -/
def State.hostReset (_ : State) : State := State.reset

/-- `load(image)`: the image's bytes in consecutive cells from address 0; the other cells keep their value (R42, R204).
None for an image that does not fit: the loader raises MalformedProgram and the core takes no step (R188, D28). -/
def State.load (s : State) (image : List Byte) : Option State :=
  if image.length ≤ Config.memSize then some { s with mem := Memory.writeFrom s.mem 0 image } else none

/-- The boot order before the first step: reset, then load (R203). -/
def boot (image : List Byte) : Option State := State.reset.load image

/-- A run has ended when the run state is Halted or Faulted (R102). -/
def State.runEnded (s : State) : Bool := s.run != .running

/-- A clean end, which the document reports as a zero exit: Halted (R43). -/
def State.cleanEnd (s : State) : Bool := s.run == .halted

/-- What the host reads once a run has ended: every register, FL, PC, IR and memory (R43, R197).
DEDUCED: that IR is among them: see notes/assumptions/21.md. -/
structure EndView where
  regs : RegFile
  fl : Byte
  pc : Word9
  ir : Byte
  mem : Memory
  deriving DecidableEq, Repr

/-- What the status port shows: the run state and the fault registers always, and the rest of the state after the run
ends (R38, R43, R197). -/
structure Status where
  run : RunState
  faultCause : FaultCause
  faultInfo : Word9
  afterEnd : Option EndView
  deriving DecidableEq, Repr

/-- The state as the host reads it after the run (R43, R197). -/
def State.endView (s : State) : EndView where
  regs := s.regs
  fl := s.fl
  pc := s.pc
  ir := s.ir
  mem := s.mem

/-- The status port (R43). -/
def State.status (s : State) : Status where
  run := s.run
  faultCause := s.faultCause
  faultInfo := s.faultInfo
  afterEnd := if s.runEnded then some s.endView else none

/-- How the host renders an event (R41). A character that is no printable ASCII character is the host's choice (D17). -/
def OutputEvent.render (e : OutputEvent) : String :=
  match e.kind with
  | .dec => toString e.value.toNat ++ "\n"
  | .chr =>
    if 32 ≤ e.value.toNat ∧ e.value.toNat < 127 then String.singleton (Char.ofNat e.value.toNat)
    else Config.renderUnprintable e.value
  | .stars => String.ofList (List.replicate e.value.toNat '*') ++ "\n"

/-- The console text of an event stream, in program order (R41). -/
def renderAll (events : List OutputEvent) : String :=
  events.foldl (fun text e => text ++ e.render) ""

end Sys2Proof.Machine
end

