-- ==== Sys2Proof/Safety.lean ====
section
/-! DEFINITION. The terms claims are stated in: what a state keeps of another (frames), the invariant of the machine, a
safe run, and the faults of a step in the spec's order of priority. -/

namespace Sys2Proof

open Sys2Proof.Machine

/-! ### Frames -/

/-- Every general register but one reads as before. -/
def SameRegsBut (r : Reg) (s t : State) : Prop := ∀ q, q ≠ r → t.reg q = s.reg q

/-- Every general register reads as before. -/
def SameRegs (s t : State) : Prop := ∀ q, t.reg q = s.reg q

/-- Every memory cell reads as before. -/
def SameMemory (s t : State) : Prop := ∀ a, Memory.read t.mem a = Memory.read s.mem a

/-- Every memory cell but one reads as before. -/
def SameMemoryBut (x : Nat) (s t : State) : Prop := ∀ a, a ≠ x → Memory.read t.mem a = Memory.read s.mem a

/-- The run state and the fault registers hold what they held. -/
def SameRunAndFault (s t : State) : Prop :=
  t.run = s.run ∧ t.faultCause = s.faultCause ∧ t.faultInfo = s.faultInfo

/-- FL, IR and the output stream hold what they held. -/
def SameFlIrOut (s t : State) : Prop := t.fl = s.fl ∧ t.ir = s.ir ∧ t.out = s.out

/-- The state `t` is `s` after the fault entry with a cause and an info value, and nothing else has changed
(spec/60_exceptions.md R185, R186). -/
def FaultedFrom (s t : State) (cause : FaultCause) (info : Nat) : Prop :=
  t.run = .faulted ∧ t.faultCause = cause ∧ t.faultInfo.toNat = info ∧
  SameRegs s t ∧ SameMemory s t ∧ SameFlIrOut s t ∧ t.pc = s.pc

/-- Only one register and PC have changed, PC to a given address. -/
def OnlyRegAndPc (r : Reg) (pc : Word9) (s t : State) : Prop :=
  SameRegsBut r s t ∧ SameMemory s t ∧ SameFlIrOut s t ∧ SameRunAndFault s t ∧ t.pc = pc

/-- Only PC has changed, to a given address. -/
def OnlyPc (pc : Word9) (s t : State) : Prop :=
  SameRegs s t ∧ SameMemory s t ∧ SameFlIrOut s t ∧ SameRunAndFault s t ∧ t.pc = pc

/-- The instruction answers a next state that has a value in one register and PC at a given address, and has changed
nothing else. -/
def WritesResult (i : Instr) (r : Reg) (v : Nat) (pc : Word9) (s : State) : Prop :=
  ∃ t, exec i s = .next t ∧ (t.reg r).toNat = v ∧ OnlyRegAndPc r pc s t

/-- The instruction answers a next state that has PC at a given address, and has changed nothing else. -/
def MovesPcTo (i : Instr) (pc : Word9) (s : State) : Prop := ∃ t, exec i s = .next t ∧ OnlyPc pc s t

/-- The instruction answers a next state whose output stream has one event more and whose PC is at a given address, and
has changed nothing else. -/
def Prints (i : Instr) (e : OutputEvent) (pc : Word9) (s : State) : Prop :=
  ∃ t, exec i s = .next t ∧ t.out = s.out ++ [e] ∧ t.pc = pc ∧
    SameRegs s t ∧ SameMemory s t ∧ t.fl = s.fl ∧ t.ir = s.ir ∧ SameRunAndFault s t

/-- The instruction answers a next state that is the fault entry with a cause and an info value, and has changed nothing
else. -/
def Faults (i : Instr) (cause : FaultCause) (info : Nat) (s : State) : Prop :=
  ∃ t, exec i s = .next t ∧ FaultedFrom s t cause info

/-- The bytes of an instruction stand in memory from PC on, under a choice of the opcode parameters. -/
def InstrAtPc (p : OpcodeParams) (i : Instr) (s : State) : Prop :=
  s.pc.toNat + i.size p ≤ 256 ∧
  ∀ k b, (encode p i)[k]? = some b → Memory.read s.mem (s.pc.toNat + k) = b

/-! ### Invariant and safe runs -/

/-- The values FL takes: no flag before the first CMP, then exactly one of E, G and L (R27, R29). -/
def legalFl (v : Byte) : Bool := v == 0x00 || v == 0x01 || v == 0x02 || v == 0x04

/-- What the fault-info register holds for a cause (R6, R38): every reachable OutOfBounds records 256, and
InvalidRegister records an operand byte of 8 or more. -/
def legalFaultInfo (cause : FaultCause) (info : Nat) : Bool :=
  match cause with
  | .outOfBounds => info == 256
  | .invalidRegister => decide (8 ≤ info) && decide (info < 256)
  | .noFault | .unknownOpcode | .arithmeticFault | .stackExhausted => info == 0

/-- The invariant of the machine. -/
structure Inv (s : State) : Prop where
  /-- Memory keeps its canonical form, with every address below 256 (R51). -/
  memory : Memory.wf s.mem
  /-- PC is at most 256 (R6). -/
  pc : s.pc.toNat ≤ 256
  /-- FL holds no flag or exactly one, and its bits 7:3 are 0 (R26, R27, R29). -/
  fl : legalFl s.fl = true
  /-- The fault cause is None exactly where the state is not Faulted (R35). -/
  cause : s.faultCause = .noFault ↔ s.run ≠ .faulted
  /-- The fault info is what the cause says (R38). -/
  info : legalFaultInfo s.faultCause s.faultInfo.toNat = true

/-- The states that steps lead to from a state. -/
inductive Reachable (s : State) : State → Prop where
  | here : Reachable s s
  | next {t u : State} : Reachable s t → step t = .next u → Reachable s u

/-- A safe run from a state never enters Faulted: no error of spec/60_exceptions.md R180 is ever raised. -/
def SafeFrom (s : State) : Prop := ∀ t, Reachable s t → t.run ≠ .faulted

/-! ### The faults of a step, from the bytes in memory (spec/60_exceptions.md R189) -/

/-- The opcodes of the dispatch table, with the default parameters (spec/30_encoding.md R79). -/
def legalOpcodes : List Nat :=
  [0x01, 0x11, 0x45, 0x46, 0x47, 0x48, 0x49, 0x50, 0x54, 0x55, 0x56, 0x69, 0x82,
   0xA0, 0xA1, 0xA2, 0xA3, 0xA4, 0xA7, 0xA8, 0xAA, 0xAB, 0xAC, 0xAD, 0xAF]

/-- The register whose index is an operand byte below 8. -/
def regAt : Nat → Reg
  | 0 => .r0
  | 1 => .r1
  | 2 => .r2
  | 3 => .r3
  | 4 => .r4
  | 5 => .r5
  | 6 => .r6
  | _ => .r7

/-- The faults the execute phase of an opcode finds, on valid operands: for DIV and MOD a divisor of 0, for CALL a return
address of 256 or more and then SP = 0, for PUSH SP = 0, for POP and RET SP = 255 (R189, item 5). -/
def executeFault (s : State) (op op2 : Nat) : Option (FaultCause × Nat) :=
  if (op = 0xA3 ∨ op = 0xA4) ∧ (s.reg (regAt op2)).toNat = 0 then some (.arithmeticFault, 0)
  else if op = 0x50 ∧ 256 ≤ s.pc.toNat + 2 then some (.outOfBounds, s.pc.toNat + 2)
  else if (op = 0x45 ∨ op = 0x50) ∧ (s.reg .r7).toNat = 0 then some (.stackExhausted, 0)
  else if (op = 0x46 ∨ op = 0x11) ∧ (s.reg .r7).toNat = 255 then some (.stackExhausted, 0)
  else none

/-- The fault a step raises in a Running state, the first in the order of R189, with its info; none if it raises none.
It is written over the bytes in memory, not over decoded instructions. -/
def firstFault (s : State) : Option (FaultCause × Nat) :=
  let pc := s.pc.toNat
  let op := (Memory.read s.mem pc).toNat
  let op1 := (Memory.read s.mem (pc + 1)).toNat
  let op2 := (Memory.read s.mem (pc + 2)).toNat
  let n := op / 64
  if 256 ≤ pc then some (.outOfBounds, pc)
  else if op ∉ legalOpcodes then some (.unknownOpcode, 0)
  else if 1 ≤ n ∧ 256 ≤ pc + 1 then some (.outOfBounds, pc + 1)
  else if 2 ≤ n ∧ 256 ≤ pc + 2 then some (.outOfBounds, pc + 2)
  else if 1 ≤ n ∧ 8 ≤ op1 then some (.invalidRegister, op1)
  else if 2 ≤ n ∧ op ≠ 0x82 ∧ op ≠ 0xAF ∧ 8 ≤ op2 then some (.invalidRegister, op2)
  else executeFault s op op2

/-- The registers an instruction names or uses: its register operands, and SP for the stack instructions (R22, R79). -/
def usesReg (i : Instr) (r : Reg) : Bool :=
  i.regOperands.any (fun b => b.toNat == r.index) ||
  (match i with
   | .push _ | .pop _ | .call _ | .ret => r == .r7
   | .hlt | .prn _ | .pra _ | .prast _ | .jmp _ | .jeq _ | .jne _ | .not _ => false
   | .ldi _ _ | .addi _ _ | .add _ _ | .sub _ _ | .mul _ _ | .div _ _ | .mod _ _ | .cmp _ _ => false
   | .and _ _ | .or _ _ | .xor _ _ | .shl _ _ | .shr _ _ => false)

end Sys2Proof
end

