-- ==== Sys2Proof/Certificates/Slice0/Obligations.lean ====
section
/-! DEFINITION. The statements for the provers, from the spec's rules file by file. The operand bytes of a statement range
over every byte: `a.toNat = ra.index` says that byte `a` names register `ra`, any of the eight, SP and equal operands
included, and `InvalidOperandRaisesInvalidRegister` says what happens on every other byte. -/

open Sys2Proof Sys2Proof.Machine

/-! ### Encoding (spec/30_encoding.md) -/

/-- Decoding an encoded instruction, whatever bytes follow it, gives the instruction and leaves those bytes, for every
instruction, every value of every operand byte and every admissible choice of the two opcode parameters (R7, R70, R78,
R79). -/
def Obligations.DecodeOfEncodeIsIdentity : Prop :=
  ∀ p : OpcodeParams, p.ok → ∀ (i : Instr) (rest : List Byte), decode p (encode p i ++ rest) = .ok (i, rest)

/-- The other direction: bytes that decode to an instruction are that instruction's encoding, so no two byte strings mean
one instruction (R79, R81). -/
def Obligations.DecodedBytesAreTheEncoding : Prop :=
  ∀ (p : OpcodeParams) (bs : List Byte) (i : Instr) (rest : List Byte),
    decode p bs = .ok (i, rest) → bs = encode p i ++ rest

/-- The instruction size is `op[7:6] + 1`: 1, 2 or 3 bytes for a defined instruction, and an opcode with `op[7:6] = 3`
selects none (R72). -/
def Obligations.SizeComesFromOpcodeBits : Prop :=
  ∀ p : OpcodeParams, p.ok →
    (∀ op : Byte, instrSize op = op.toNat / 64 + 1) ∧
    (∀ i : Instr, (i.opcode p).toNat / 64 ≤ 2 ∧ (encode p i).length = (i.opcode p).toNat / 64 + 1) ∧
    (∀ (op : Byte) (rest : List Byte), op.toNat / 64 = 3 → decode p (op :: rest) = .error (.unknownOpcode op))

/-- `sets_pc` is bit 4 of the opcode; it is true for the jump, call and return instructions and for no other; where it is
true the advance phase leaves PC alone (R73). -/
def Obligations.SetsPcMarksControlTransfers : Prop :=
  (∀ op : Byte, setsPc op = true ↔ op.toNat / 16 % 2 = 1) ∧
  (∀ p : OpcodeParams, p.ok → ∀ i : Instr,
    setsPc (i.opcode p) = true ↔
      (∃ a, i = .call a) ∨ i = .ret ∨ (∃ a, i = .jmp a) ∨ (∃ a, i = .jeq a) ∨ (∃ a, i = .jne a)) ∧
  (∀ (i : Instr) (s : State), setsPc (i.opcode Config.params) = true → (s.finish i).pc = s.pc)

/-- With the default parameters the decoder rejects an opcode as unknown, whatever follows it, exactly where it is not one
of the 25 of the table; the other 231 select no instruction (R80). The table's values are the family's and the spec's own
choice: notes/assumptions/1.md and 2.md. -/
def Obligations.OtherOpcodesSelectNothing : Prop :=
  (∀ (op : Byte) (rest : List Byte),
    decode Config.params (op :: rest) = .error (.unknownOpcode op) ↔ op.toNat ∉ legalOpcodes) ∧
  legalOpcodes.Nodup ∧ (∀ v ∈ legalOpcodes, v < 256) ∧ legalOpcodes.length + 231 = 256

/-- Words written out from the spec's encodings decode to the instructions they stand for: one of each operand shape and
family (R79; spec/95_test_vectors.md W1 and section 2.1). A sanity statement. -/
def Obligations.SpecWordsDecode : Prop :=
  decode Config.params [0b10000010, 0b00000000, 0b00001000] = .ok (.ldi 0 8, []) ∧
  decode Config.params [0b01000111, 0b00000000] = .ok (.prn 0, []) ∧
  decode Config.params [0b00000001] = .ok (.hlt, []) ∧
  decode Config.params [0b10100000, 0b00000000, 0b00000001] = .ok (.add 0 1, []) ∧
  decode Config.params [0b01101001, 0b00000010] = .ok (.not 2, []) ∧
  decode Config.params [0b01000101, 0b00000011] = .ok (.push 3, []) ∧
  decode Config.params [0b01010101, 0b00000011] = .ok (.jeq 3, [])

/-- The model's values of the two opcode parameters meet the decoder constraints (R78). The values are the spec's own
choice: notes/assumptions/1.md. -/
def Obligations.ParametersMeetDecoderConstraints : Prop := Config.params.ok

/-! ### The step (spec/40_dispatch.md) -/

/-- Where the bytes of an instruction stand at PC, a Running step is that instruction's meaning on the state with the
opcode in IR (R90, R92, R97). The meaning itself moves PC past the instruction (R98). -/
def Obligations.StepRunsTheDecodedInstruction : Prop :=
  ∀ (i : Instr) (s : State), s.run = .running → InstrAtPc Config.params i s →
    step s = exec i { s with ir := i.opcode Config.params }

/-- The same for every admissible choice of the two opcode parameters the spec leaves open (R7, R78). -/
def Obligations.StepRunsUnderEveryParameterChoice : Prop :=
  ∀ p : OpcodeParams, p.ok → ∀ (i : Instr) (s : State), s.run = .running → InstrAtPc p i s →
    stepWith p s = exec i { s with ir := i.opcode p }

/-- The fetch: at PC = 256 or above it raises OutOfBounds with PC and leaves IR; otherwise, whatever the step then does,
IR holds the byte at PC (R92; the fault is the spec's decision D4). -/
def Obligations.FetchLoadsTheInstructionRegister : Prop :=
  ∀ s : State, s.run = .running →
    (256 ≤ s.pc.toNat → ∃ t, step s = .next t ∧ FaultedFrom s t .outOfBounds s.pc.toNat) ∧
    (s.pc.toNat < 256 → ∃ t, step s = .next t ∧ t.ir = Memory.read s.mem s.pc.toNat)

/-- An opcode of no row raises UnknownOpcode: PC stays and IR holds the opcode (R80, R94, R181). Which opcodes have rows
rests on notes/assumptions/1.md and 2.md. -/
def Obligations.UnknownOpcodeFaults : Prop :=
  ∀ s : State, s.run = .running → s.pc.toNat < 256 → (Memory.read s.mem s.pc.toNat).toNat ∉ legalOpcodes →
    ∃ t, step s = .next t ∧ FaultedFrom { s with ir := Memory.read s.mem s.pc.toNat } t .unknownOpcode 0

/-- A defined instruction whose operand bytes run past address 255 raises OutOfBounds with address 256, and no handler
runs (R95; the spec's decisions D3 and D4). Which opcodes are defined rests on notes/assumptions/1.md and 2.md. -/
def Obligations.OperandPastMemoryFaults : Prop :=
  ∀ s : State, s.run = .running → s.pc.toNat < 256 → (Memory.read s.mem s.pc.toNat).toNat ∈ legalOpcodes →
    256 < s.pc.toNat + ((Memory.read s.mem s.pc.toNat).toNat / 64 + 1) →
    ∃ t, step s = .next t ∧ FaultedFrom { s with ir := Memory.read s.mem s.pc.toNat } t .outOfBounds 256

/-- The first register operand byte of 8 or more, operand 1 before operand 2, raises InvalidRegister with its value, and
the instruction does nothing else (R96, R187; the spec's decision D1). -/
def Obligations.InvalidOperandRaisesInvalidRegister : Prop :=
  ∀ (i : Instr) (s : State) (v : Byte),
    i.regOperands.find? (fun b => decide (8 ≤ b.toNat)) = some v → Faults i .invalidRegister v.toNat s

/-- A step raises the first fault in the spec's order of priority, with its cause and info and no other change but IR, and
where there is none to raise it does not fault and leaves the fault registers alone (R185, R186, R189; the order is the spec's
decision D26). `firstFault` reads the bytes in memory, not decoded instructions; the opcodes it compares them with rest on
notes/assumptions/1.md and 2.md, and the fault conditions at SP = 0 and SP = 255 (R180) read R7 as SP (R22), which is
presumed, from the family: notes/assumptions/3.md. -/
def Obligations.StepRaisesTheFirstFault : Prop :=
  ∀ s : State, s.run = .running →
    match firstFault s with
    | some (cause, info) =>
      ∃ t, step s = .next t ∧
        FaultedFrom (if s.pc.toNat < 256 then { s with ir := Memory.read s.mem s.pc.toNat } else s) t cause info
    | none => ∃ t, step s = .next t ∧ t.run ≠ .faulted ∧ t.faultCause = s.faultCause ∧ t.faultInfo = s.faultInfo

/-- An instruction that faults has done nothing else: no register, flag, memory cell, output event or PC change (R186; the
spec's decision D10). -/
def Obligations.FaultingInstructionChangesNothingElse : Prop :=
  ∀ (i : Instr) (s t : State), s.run ≠ .faulted → exec i s = .next t → t.run = .faulted →
    FaultedFrom s t t.faultCause t.faultInfo.toNat

/-- Every step answers a next state: no instruction, encoding or state stops the model. This is the model's choice, not a
rule of the spec: a fault of the spec is a next state whose run state is Faulted (notes/assumptions/8.md), and a stopped
core's step answers its own state (notes/assumptions/9.md). -/
def Obligations.EveryStepAnswersNext : Prop := ∀ s : State, ∃ t, step s = .next t

/-- Halted and Faulted are absorbing: whatever steps follow, the state stays as it is (R100). That a step there answers the
same state is the model's choice: notes/assumptions/9.md. -/
def Obligations.StoppedStatesAreAbsorbing : Prop :=
  ∀ s : State, s.run ≠ .running → ∀ t, Reachable s t → t = s

/-- HLT halts and still advances PC, and changes nothing else (R101; the spec's decision D9). -/
def Obligations.HaltEntersHalted : Prop :=
  ∀ s : State, ∃ t, exec .hlt s = .next t ∧ t.run = .halted ∧ t.pc = s.pc + 1 ∧
    t.faultCause = s.faultCause ∧ t.faultInfo = s.faultInfo ∧ SameRegs s t ∧ SameMemory s t ∧ SameFlIrOut s t

/-- Only HLT enters Halted: a Running step that ends there ran opcode 0x01 (R34, R101, R197). -/
def Obligations.OnlyHaltEntersHalted : Prop :=
  ∀ s t : State, s.run = .running → step s = .next t → t.run = .halted →
    s.pc.toNat < 256 ∧ Memory.read s.mem s.pc.toNat = 0x01 ∧ t.pc = s.pc + 1

/-- Where PC is after an instruction: where it was if the instruction faulted, past the instruction's bytes if its opcode's
`sets_pc` bit is 0, and otherwise at the address in its register, at the byte on top of the stack, or, for JEQ and JNE,
past its bytes (R98, R99). The targets of CALL and RET are those of spec/43_stack.md section 2 (R155, R156); that CALL's is
in a register and that the top of the stack is where R7 points are presumed, from the family: notes/assumptions/16.md and
3.md. -/
def Obligations.ProgramCounterAfterInstruction : Prop :=
  ∀ (i : Instr) (s t : State), s.run ≠ .faulted → exec i s = .next t →
    (t.run = .faulted → t.pc = s.pc) ∧
    (t.run ≠ .faulted → setsPc (i.opcode Config.params) = false →
      t.pc = s.pc + BitVec.ofNat 9 (encode Config.params i).length) ∧
    (t.run ≠ .faulted → setsPc (i.opcode Config.params) = true →
      (∃ r : Reg, (∃ b ∈ i.regOperands, b.toNat = r.index) ∧ t.pc.toNat = (s.reg r).toNat) ∨
      (i = .ret ∧ t.pc.toNat = (Memory.read s.mem (s.reg .r7).toNat).toNat) ∨
      (((∃ a, i = .jeq a) ∨ ∃ a, i = .jne a) ∧ t.pc = s.pc + 2))

/-! ### The ALU (spec/41_alu.md) -/

/-- ADD, SUB and MUL write the exact result reduced modulo 256 to operand 1's register; 3 bytes; nothing else changes
(R110 to R113, R126). -/
def Obligations.AddSubMulReduceModulo256 : Prop :=
  ∀ (s : State) (a b : Byte) (ra rb : Reg), a.toNat = ra.index → b.toNat = rb.index →
    WritesResult (.add a b) ra (((s.reg ra).toNat + (s.reg rb).toNat) % 256) (s.pc + 3) s ∧
    WritesResult (.sub a b) ra
      ((((s.reg ra).toNat : Int) - ((s.reg rb).toNat : Int)) % 256).toNat (s.pc + 3) s ∧
    WritesResult (.mul a b) ra (((s.reg ra).toNat * (s.reg rb).toNat) % 256) (s.pc + 3) s

/-- DIV and MOD by a register that is not 0 write the quotient rounded down and the remainder; by 0 they raise
ArithmeticFault and change nothing else (R114, R115, R182). -/
def Obligations.DivModAndDivisionByZero : Prop :=
  ∀ (s : State) (a b : Byte) (ra rb : Reg), a.toNat = ra.index → b.toNat = rb.index →
    ((s.reg rb).toNat ≠ 0 →
      WritesResult (.div a b) ra ((s.reg ra).toNat / (s.reg rb).toNat) (s.pc + 3) s ∧
      WritesResult (.mod a b) ra ((s.reg ra).toNat % (s.reg rb).toNat) (s.pc + 3) s) ∧
    ((s.reg rb).toNat = 0 → Faults (.div a b) .arithmeticFault 0 s ∧ Faults (.mod a b) .arithmeticFault 0 s)

/-- AND, OR and XOR work bit by bit on the two registers, and NOT gives 255 minus the register (R116 to R119). -/
def Obligations.LogicWorksBitByBit : Prop :=
  ∀ (s : State) (a b : Byte) (ra rb : Reg), a.toNat = ra.index → b.toNat = rb.index →
    WritesResult (.and a b) ra ((s.reg ra).toNat &&& (s.reg rb).toNat) (s.pc + 3) s ∧
    WritesResult (.or a b) ra ((s.reg ra).toNat ||| (s.reg rb).toNat) (s.pc + 3) s ∧
    WritesResult (.xor a b) ra ((s.reg ra).toNat ^^^ (s.reg rb).toNat) (s.pc + 3) s ∧
    WritesResult (.not a) ra (255 - (s.reg ra).toNat) (s.pc + 2) s

/-- SHL multiplies by a power of two modulo 256 and SHR divides by one, rounding down; the amount is the whole register
(R120, R121). -/
def Obligations.ShiftsUseTheWholeAmount : Prop :=
  ∀ (s : State) (a b : Byte) (ra rb : Reg), a.toNat = ra.index → b.toNat = rb.index →
    WritesResult (.shl a b) ra (((s.reg ra).toNat * 2 ^ (s.reg rb).toNat) % 256) (s.pc + 3) s ∧
    WritesResult (.shr a b) ra ((s.reg ra).toNat / 2 ^ (s.reg rb).toNat) (s.pc + 3) s

/-- ADDI adds its immediate modulo 256, whatever byte the immediate is (R82, R122). That ADDI has this operand form is the
spec's decision D13: notes/assumptions/1.md. -/
def Obligations.AddImmediateReducesModulo256 : Prop :=
  ∀ (s : State) (a imm : Byte) (ra : Reg), a.toNat = ra.index →
    WritesResult (.addi a imm) ra (((s.reg ra).toNat + imm.toNat) % 256) (s.pc + 3) s

/-- CMP replaces FL by exactly one of E, G and L, from the unsigned comparison, and changes no register, no memory cell and
nothing else but PC (R123). The bit positions are the family's: notes/assumptions/4.md. -/
def Obligations.CompareSetsOneFlag : Prop :=
  ∀ (s : State) (a b : Byte) (ra rb : Reg), a.toNat = ra.index → b.toNat = rb.index →
    ∃ t, exec (.cmp a b) s = .next t ∧
      ((s.reg ra).toNat = (s.reg rb).toNat → t.fl = 0b00000001) ∧
      ((s.reg rb).toNat < (s.reg ra).toNat → t.fl = 0b00000010) ∧
      ((s.reg ra).toNat < (s.reg rb).toNat → t.fl = 0b00000100) ∧
      t.pc = s.pc + 3 ∧ SameRegs s t ∧ SameMemory s t ∧ t.ir = s.ir ∧ t.out = s.out ∧ SameRunAndFault s t

/-- Only CMP writes FL: no other instruction changes it, whatever its result, and no step that does not run a CMP, faulting
or not, does (R124). -/
def Obligations.OnlyCompareWritesFlags : Prop :=
  (∀ (i : Instr) (s t : State), exec i s = .next t → t.fl ≠ s.fl → ∃ a b, i = .cmp a b) ∧
  (∀ s t : State, step s = .next t → t.fl ≠ s.fl →
    s.run = .running ∧ ∃ a b rest, decode Config.params s.fetchWindow = .ok (.cmp a b, rest))

/-- ArithmeticFault is raised by DIV and MOD with a divisor of 0, and by no other ALU condition or instruction; an
instruction that raises it ends in Faulted (from R182). -/
def Obligations.ArithmeticFaultOnlyByDivisionByZero : Prop :=
  ∀ (i : Instr) (s : State), s.faultCause = .noFault →
    ((∃ t, exec i s = .next t ∧ t.faultCause = .arithmeticFault) ↔
      ∃ a b, (i = .div a b ∨ i = .mod a b) ∧
        ∃ ra rb : Reg, a.toNat = ra.index ∧ b.toNat = rb.index ∧ (s.reg rb).toNat = 0) ∧
    (∀ t, exec i s = .next t → t.faultCause = .arithmeticFault → t.run = .faulted)

/-! ### Load and output (spec/42_load_output.md) -/

/-- LDI, the bytes 0x82, a, imm, loads its immediate, whatever byte it is, into any register, R7 included, and changes
nothing else but PC (from R140's pseudocode and encoding). -/
def Obligations.LoadImmediateWritesTheRegister : Prop :=
  ∀ (s : State) (a imm : Byte) (ra : Reg), a.toNat = ra.index →
    encode Config.params (.ldi a imm) = [0b10000010, a, imm] ∧
    WritesResult (.ldi a imm) ra imm.toNat (s.pc + 3) s

/-- PRN, the bytes 0x47, a, sends one event (Dec, R[a]), which the host renders as the decimal digits and a line break, and
changes nothing else but PC (R141). -/
def Obligations.PrintNumberSendsOneEvent : Prop :=
  ∀ (s : State) (a : Byte) (ra : Reg), a.toNat = ra.index →
    encode Config.params (.prn a) = [0b01000111, a] ∧
    Prints (.prn a) ⟨.dec, s.reg ra⟩ (s.pc + 2) s ∧
    OutputEvent.render ⟨.dec, s.reg ra⟩ = toString (s.reg ra).toNat ++ "\n"

/-- PRA sends one event (Chr, R[a]) and PRAST one event (Stars, R[a]), and they change nothing else but PC (R142, R143). -/
def Obligations.PrintCharAndStarsSendOneEvent : Prop :=
  ∀ (s : State) (a : Byte) (ra : Reg), a.toNat = ra.index →
    Prints (.pra a) ⟨.chr, s.reg ra⟩ (s.pc + 2) s ∧ Prints (.prast a) ⟨.stars, s.reg ra⟩ (s.pc + 2) s

/-- The output stream only grows, by one event for a print instruction that does not fault and by none for any other
(R41). -/
def Obligations.OutputGrowsOnlyByPrints : Prop :=
  ∀ (i : Instr) (s t : State), exec i s = .next t →
    (t.out = s.out ∧ (t.run = .faulted ∨ ∀ a, i ≠ .prn a ∧ i ≠ .pra a ∧ i ≠ .prast a)) ∨
    ∃ (k : OutputKind) (r : Reg), (∃ b ∈ i.regOperands, b.toNat = r.index) ∧ t.out = s.out ++ [⟨k, s.reg r⟩] ∧
      ((k = .dec ∧ ∃ a, i = .prn a) ∨ (k = .chr ∧ ∃ a, i = .pra a) ∨ (k = .stars ∧ ∃ a, i = .prast a))

/-! ### The stack (spec/43_stack.md); that SP is R7 is the family's: notes/assumptions/3.md -/

/-- PUSH, with SP not 0, stores the register's old value at SP - 1 and moves SP there; with SP = 0 it raises
StackExhausted (R150, R152, R153; the spec's decisions D11 and D23: notes/assumptions/15.md and 16.md). -/
def Obligations.PushStoresBelowTheStackPointer : Prop :=
  ∀ (s : State) (a : Byte) (ra : Reg), a.toNat = ra.index →
    ((s.reg .r7).toNat ≠ 0 →
      ∃ t, exec (.push a) s = .next t ∧
        (t.reg .r7).toNat = (s.reg .r7).toNat - 1 ∧
        Memory.read t.mem ((s.reg .r7).toNat - 1) = s.reg ra ∧
        SameMemoryBut ((s.reg .r7).toNat - 1) s t ∧ SameRegsBut .r7 s t ∧
        t.pc = s.pc + 2 ∧ SameFlIrOut s t ∧ SameRunAndFault s t) ∧
    ((s.reg .r7).toNat = 0 → Faults (.push a) .stackExhausted 0 s)

/-- POP, with SP not 255, loads the byte at SP and moves SP up by one, unless the register is R7, which then holds the
popped byte; memory stays; with SP = 255 it raises StackExhausted (R151, R152, R154; the
spec's decisions D11 and D23: notes/assumptions/15.md and 16.md). -/
def Obligations.PopLoadsFromTheStackPointer : Prop :=
  ∀ (s : State) (a : Byte) (ra : Reg), a.toNat = ra.index →
    ((s.reg .r7).toNat ≠ 255 →
      ∃ t, exec (.pop a) s = .next t ∧
        t.reg ra = Memory.read s.mem (s.reg .r7).toNat ∧
        (ra ≠ .r7 → (t.reg .r7).toNat = (s.reg .r7).toNat + 1) ∧
        (∀ q, q ≠ ra → q ≠ .r7 → t.reg q = s.reg q) ∧
        SameMemory s t ∧ t.pc = s.pc + 2 ∧ SameFlIrOut s t ∧ SameRunAndFault s t) ∧
    ((s.reg .r7).toNat = 255 → Faults (.pop a) .stackExhausted 0 s)

/-- CALL pushes the address after it and jumps to the register's old value; a return address of 256 or more raises
OutOfBounds with it, before SP = 0 raises StackExhausted (R155; the spec's decisions D12 and D24). That CALL takes its
target from a register is presumed, from the family: notes/assumptions/16.md. -/
def Obligations.CallPushesTheReturnAddress : Prop :=
  ∀ (s : State) (a : Byte) (ra : Reg), a.toNat = ra.index →
    (s.pc.toNat + 2 < 256 → (s.reg .r7).toNat ≠ 0 →
      ∃ t, exec (.call a) s = .next t ∧
        (t.reg .r7).toNat = (s.reg .r7).toNat - 1 ∧
        (Memory.read t.mem ((s.reg .r7).toNat - 1)).toNat = s.pc.toNat + 2 ∧
        SameMemoryBut ((s.reg .r7).toNat - 1) s t ∧ SameRegsBut .r7 s t ∧
        t.pc.toNat = (s.reg ra).toNat ∧ SameFlIrOut s t ∧ SameRunAndFault s t) ∧
    (s.pc.toNat + 2 < 256 → (s.reg .r7).toNat = 0 → Faults (.call a) .stackExhausted 0 s) ∧
    (256 ≤ s.pc.toNat + 2 → s.pc.toNat < 256 → Faults (.call a) .outOfBounds (s.pc.toNat + 2) s)

/-- RET, with SP not 255, jumps to the byte at SP and moves SP up by one; with SP = 255 it raises StackExhausted (R151,
R152, R156; that a pop at SP = 255 faults, before anything changes, is the spec's decision D11:
notes/assumptions/15.md). -/
def Obligations.ReturnPopsTheProgramCounter : Prop :=
  ∀ s : State,
    ((s.reg .r7).toNat ≠ 255 →
      ∃ t, exec .ret s = .next t ∧
        t.pc.toNat = (Memory.read s.mem (s.reg .r7).toNat).toNat ∧
        (t.reg .r7).toNat = (s.reg .r7).toNat + 1 ∧
        SameRegsBut .r7 s t ∧ SameMemory s t ∧ SameFlIrOut s t ∧ SameRunAndFault s t) ∧
    ((s.reg .r7).toNat = 255 → Faults .ret .stackExhausted 0 s)

/-- PUSH then POP moves the value, even into a different register, and restores SP (R157). -/
def Obligations.PushThenPopMovesTheValue : Prop :=
  ∀ (s : State) (a b : Byte) (ra rb : Reg), a.toNat = ra.index → b.toNat = rb.index → ra ≠ .r7 → rb ≠ .r7 →
    (s.reg .r7).toNat ≠ 0 →
    ∃ t u, exec (.push a) s = .next t ∧ exec (.pop b) t = .next u ∧
      u.reg rb = s.reg ra ∧ u.reg .r7 = s.reg .r7 ∧ ∀ q, q ≠ rb → u.reg q = s.reg q

/-- CALL then RET leaves PC at the address after the CALL and restores SP and every register (R157). That CALL takes its
target from a register is presumed, from the family: notes/assumptions/16.md. -/
def Obligations.CallThenReturnComesBack : Prop :=
  ∀ (s : State) (a : Byte) (ra : Reg), a.toNat = ra.index → s.pc.toNat + 2 < 256 → (s.reg .r7).toNat ≠ 0 →
    ∃ t u, exec (.call a) s = .next t ∧ exec .ret t = .next u ∧ u.pc = s.pc + 2 ∧ SameRegs s u

/-- Memory is written by PUSH and CALL only, and only at SP - 1 (R52). -/
def Obligations.OnlyPushAndCallWriteMemory : Prop :=
  ∀ (i : Instr) (s t : State), exec i s = .next t →
    SameMemoryBut ((s.reg .r7).toNat - 1) s t ∧
    ((∀ a, i ≠ .push a) → (∀ a, i ≠ .call a) → SameMemory s t)

/-! ### Jumps (spec/44_branch.md) -/

/-- JMP goes to the address in its register; JEQ does where E is set and JNE where E is clear (R170 to R172). E being bit 0
is the family's: notes/assumptions/4.md. -/
def Obligations.TakenJumpsGoToTheRegister : Prop :=
  ∀ (s : State) (a : Byte) (ra : Reg), a.toNat = ra.index →
    MovesPcTo (.jmp a) (s.reg ra).zext9 s ∧
    (s.fl.getLsbD 0 = true → MovesPcTo (.jeq a) (s.reg ra).zext9 s) ∧
    (s.fl.getLsbD 0 = false → MovesPcTo (.jne a) (s.reg ra).zext9 s)

/-- A conditional jump that is not taken, JEQ with E clear or JNE with E set, moves PC past its own decoded size, 2; one at
address 254 leaves PC = 256, and the next step raises OutOfBounds (R173). -/
def Obligations.NotTakenJumpsFallThrough : Prop :=
  ∀ (s : State) (a : Byte) (ra : Reg) (i : Instr), a.toNat = ra.index →
    ((i = .jeq a ∧ s.fl.getLsbD 0 = false) ∨ (i = .jne a ∧ s.fl.getLsbD 0 = true)) →
    i.size Config.params = 2 ∧
    ∃ t, exec i s = .next t ∧ OnlyPc (s.pc + BitVec.ofNat 9 (i.size Config.params)) s t ∧
      (s.pc.toNat = 254 → s.run = .running →
        t.pc.toNat = 256 ∧ ∃ u, step t = .next u ∧ FaultedFrom t u .outOfBounds 256)

/-- A JEQ or JNE that follows a CMP is decided by that CMP: JEQ is taken where the operands were equal and JNE where they
were not (R171, R172, R205). -/
def Obligations.ConditionalJumpSeesTheLastCompare : Prop :=
  ∀ (s : State) (a b c : Byte) (ra rb rc : Reg), a.toNat = ra.index → b.toNat = rb.index → c.toNat = rc.index →
    ∃ t, exec (.cmp a b) s = .next t ∧
      MovesPcTo (.jeq c) (if (s.reg ra).toNat = (s.reg rb).toNat then (s.reg rc).zext9 else s.pc + 5) t ∧
      MovesPcTo (.jne c) (if (s.reg ra).toNat = (s.reg rb).toNat then s.pc + 5 else (s.reg rc).zext9) t

/-- No instruction reads G or L, or FL as a whole: two states that differ in FL only, E alike, step alike, and for an
instruction other than JEQ and JNE, E need not be alike (R28). -/
def Obligations.OnlyTheEqualFlagIsRead : Prop :=
  ∀ (i : Instr) (s t : State) (v : Byte), exec i s = .next t →
    ((∀ a, i ≠ .jeq a ∧ i ≠ .jne a) ∨ v.getLsbD 0 = s.fl.getLsbD 0) →
    ∃ u, exec i { s with fl := v } = .next u ∧ { u with fl := t.fl } = t

/-- A register an instruction neither names nor uses as SP is neither read nor written: another value in it changes nothing
else. In particular R5 and R6 have no function of their own (R22, R23, R192). -/
def Obligations.UnusedRegistersDoNotMatter : Prop :=
  ∀ (i : Instr) (s t : State) (r : Reg) (v : Byte), usesReg i r = false → exec i s = .next t →
    exec i (s.setReg r v) = .next (t.setReg r v) ∧ t.reg r = s.reg r

/-! ### Memory (spec/20_memory.md) -/

/-- Canonical memories that read alike are equal: the list holds nothing but the cells' contents (R50, R56). The canonical
form is the model's representation. -/
def Obligations.MemoryIsDeterminedByItsReads : Prop :=
  ∀ m n : Memory, m.wf → n.wf → (∀ a, Memory.read m a = Memory.read n a) → m = n

/-- Fetch sees stores at once: where PUSH writes the byte that follows it, the next step has that byte in IR (R61,
R206). -/
def Obligations.NextFetchSeesThePushedByte : Prop :=
  ∀ (s : State) (a : Byte) (ra : Reg), s.run = .running → a.toNat = ra.index →
    InstrAtPc Config.params (.push a) s → (s.reg .r7).toNat = s.pc.toNat + 3 →
    ∃ t u, step s = .next t ∧ step t = .next u ∧ t.pc.toNat = s.pc.toNat + 2 ∧ u.ir = s.reg ra

/-! ### Reset, boot and the invariant (spec/70_reset_and_hazards.md) -/

/-- R0 to R6 reset to 0x00 and R7 to 0xF4, and PC to 0 (R25, R31). -/
def Obligations.ResetRegistersAndProgramCounter : Prop :=
  (∀ r : Reg, State.reset.reg r = if r = .r7 then 0xF4 else 0x00) ∧ State.reset.pc = 0

/-- The rest of the reset state: FL, IR and the fault registers 0, Running, all 256 cells 0x00, no output; from any state
(R200, R201; the values of FL, IR and the fault registers are the spec's decisions D6, D8 and D25). -/
def Obligations.ResetLeavesEverythingElseZero : Prop :=
  ∀ s : State, s.hostReset.fl = 0 ∧ s.hostReset.ir = 0 ∧ s.hostReset.run = .running ∧
    s.hostReset.faultCause.code = 0 ∧ s.hostReset.faultInfo = 0 ∧
    (∀ a, Memory.read s.hostReset.mem a = 0) ∧ s.hostReset.out = []

/-- The loader puts the image's bytes in the cells from address 0 in order, leaves the other cells at 0x00 and changes
nothing else; an image of more than 256 bytes is not loaded (R203, R204; the last is the spec's decision D28). -/
def Obligations.BootLoadsTheImage : Prop :=
  ∀ image : List Byte,
    (image.length ≤ 256 →
      ∃ s, boot image = some s ∧ (∀ a, Memory.read s.mem a = image.getD a 0) ∧ Memory.wf s.mem ∧
        { s with mem := State.reset.mem } = State.reset) ∧
    (256 < image.length → boot image = none)

/-- The machine right after reset meets the invariant. -/
def Obligations.ResetMeetsTheInvariant : Prop := Inv State.reset

/-- Every step keeps the invariant: memory canonical, PC at most 256, FL one of its four values, the fault registers as
the run state and the cause say (R6, R26, R27, R35, R38, R51). -/
def Obligations.StepKeepsTheInvariant : Prop := ∀ s t : State, Inv s → step s = .next t → Inv t

/-- Every state of every run of every image meets the invariant; so no reachable PC is above 256, and every OutOfBounds
fault records 256 (R6). -/
def Obligations.EveryRunMeetsTheInvariant : Prop :=
  ∀ (image : List Byte) (s t : State), boot image = some s → Reachable s t → Inv t

/-- A run is safe exactly where no Running state it reaches has a fault to raise (R180, R189). The opcodes `firstFault`
compares bytes with rest on notes/assumptions/1.md and 2.md, and its reading of R7 as SP on notes/assumptions/3.md. -/
def Obligations.SafeRunsAreTheFaultFreeOnes : Prop :=
  ∀ s : State, s.run ≠ .faulted →
    (SafeFrom s ↔ ∀ t, Reachable s t → t.run = .running → firstFault t = none)

/-- All state is there for the host to read once a run has ended: two ended states that the status port shows alike, with
the same output events sent, are the same state; while the core is Running, the port shows the run state and the fault
registers only (R43, R197; that the port shows IR is deduced: notes/assumptions/21.md). -/
def Obligations.EndedStatesAreReadWhole : Prop :=
  (∀ s t : State, s.run ≠ .running → s.status = t.status → s.out = t.out → s = t) ∧
  (∀ s : State, s.run = .running → s.status = ⟨.running, s.faultCause, s.faultInfo, none⟩)
end

