-- ==== Sys2Proof/Laws/Decode.lean ====
section
/-! SUPPORT. What a lookup in the dispatch table can answer, and the fields of an opcode as numbers. -/

namespace Sys2Proof

/-- A handler that a lookup finds stands in a row with that opcode (R79). -/
theorem findHandler_mem {rows : List (Byte × Handler)} {op : Byte} {h : Handler} (e : findHandler rows op = some h) :
    (op, h) ∈ rows := by
  induction rows with
  | nil => cases e
  | cons r rows ih =>
    simp only [findHandler] at e
    split at e
    · next hop => cases e; cases hop; exact List.mem_cons_self
    · exact List.mem_cons_of_mem _ (ih e)

/-- A lookup finds nothing exactly where no row has the opcode (R80). -/
theorem findHandler_eq_none_iff {rows : List (Byte × Handler)} {op : Byte} :
    findHandler rows op = none ↔ op ∉ rows.map Prod.fst := by
  induction rows with
  | nil => simp [findHandler]
  | cons r rows ih =>
    simp only [findHandler]
    split <;> simp_all

/-- `op[7:6]` as a number (R71). -/
theorem operandCount_eq (op : Byte) : operandCount op = op.toNat / 64 := by
  have := op.isLt
  simp only [operandCount, BitVec.extractLsb'_toNat, Nat.shiftRight_eq_div_pow]
  omega

/-- The size of an instruction, from its opcode, is its number of bytes (R72). -/
theorem Instr.size_eq (i : Instr) : i.size Config.params = i.operands.length + 1 := by
  cases i <;> simp [Instr.size, instrSize, operandCount, Instr.opcode, Instr.operands, Config.params]

/-- The opcodes whose sets_pc bit is set: those of CALL, RET, JMP, JEQ and JNE (R73, R79). For one constructor the right
side computes, so that `setsPc_opcode (.mul a b)` proves `setsPc … = false`. -/
theorem setsPc_opcode (i : Instr) : setsPc (i.opcode Config.params) =
    (match i with
     | .call _ | .ret | .jmp _ | .jeq _ | .jne _ => true
     | .hlt | .push _ | .pop _ | .prn _ | .pra _ | .prast _ | .not _ | .ldi _ _ | .addi _ _ => false
     | .add _ _ | .sub _ _ | .mul _ _ | .div _ _ | .mod _ _ | .cmp _ _ => false
     | .and _ _ | .or _ _ | .xor _ _ | .shl _ _ | .shr _ _ => false) := by
  cases i <;> simp [setsPc, Instr.opcode, Config.params]

/-- The decoder takes the operand bytes from the front and leaves the rest (R70). -/
theorem Handler.takeOperands_append {h : Handler} {bs rest : List Byte} {i : Instr}
    (e : h.takeOperands bs = .ok (i, [])) : h.takeOperands (bs ++ rest) = .ok (i, rest) := by
  cases h <;> rcases bs with _ | ⟨a, _ | ⟨b, bs⟩⟩ <;> simp_all [Handler.takeOperands]

end Sys2Proof
end

