-- ==== Sys2Proof/Laws/Memory.lean ====
section
/-! SUPPORT. The laws of memory: a read after a write, and the canonical form kept by every operation. -/

namespace Sys2Proof.Machine

@[simp] theorem Memory.read_nil (a : Nat) : Memory.read [] a = Config.resetByte := rfl

/-- An address that is not listed reads as the reset byte. -/
theorem Memory.read_eq_reset {m : Memory} {a : Nat} (h : ∀ c ∈ m, c.1 ≠ a) : m.read a = Config.resetByte := by
  induction m with
  | nil => rfl
  | cons c m ih =>
    have hc : c.1 ≠ a := h c List.mem_cons_self
    simp only [Memory.read, if_neg hc]
    exact ih fun d hd => h d (List.mem_cons_of_mem _ hd)

@[simp] theorem Memory.read_erase_self (m : Memory) (a : Nat) : (m.erase a).read a = Config.resetByte :=
  Memory.read_eq_reset fun c hc => by simpa using (List.mem_filter.mp hc).2

theorem Memory.read_erase_other (m : Memory) {a b : Nat} (h : b ≠ a) : (m.erase a).read b = m.read b := by
  induction m with
  | nil => rfl
  | cons c m ih =>
    unfold Memory.erase at ih ⊢
    by_cases hc : c.1 = a
    · have hb : c.1 ≠ b := fun e => h (e.symm.trans hc)
      simp only [List.filter_cons, hc, bne_self_eq_false, Bool.false_eq_true, if_false, ih]
      simp only [Memory.read, if_neg hb]
    · simp only [List.filter_cons, bne_iff_ne.mpr hc, if_true, Memory.read, ih]

@[simp] theorem Memory.read_insert_self {m : Memory} {a : Nat} (v : Byte) (h : ∀ c ∈ m, c.1 ≠ a) :
    (m.insert a v).read a = v := by
  induction m with
  | nil => simp [Memory.insert, Memory.read]
  | cons c m ih =>
    have hc : c.1 ≠ a := h c List.mem_cons_self
    simp only [Memory.insert]
    split
    · simp [Memory.read]
    · simp only [Memory.read, if_neg hc]
      exact ih fun d hd => h d (List.mem_cons_of_mem _ hd)

theorem Memory.read_insert_other (m : Memory) {a b : Nat} (v : Byte) (h : b ≠ a) :
    (m.insert a v).read b = m.read b := by
  induction m with
  | nil => simp [Memory.insert, Memory.read, h.symm]
  | cons c m ih =>
    simp only [Memory.insert]
    split
    · simp [Memory.read, h.symm]
    · simp only [Memory.read, ih]

/-- A read after a write to the same address gives the byte written (R56). -/
@[simp] theorem Memory.read_write_self (m : Memory) (a : Nat) (v : Byte) : (m.write a v).read a = v := by
  unfold Memory.write
  split
  · next h => rw [Memory.read_erase_self, h]
  · exact Memory.read_insert_self v fun c hc => by simpa using (List.mem_filter.mp hc).2

/-- A write changes only its own cell (R56). -/
theorem Memory.read_write_other (m : Memory) {a b : Nat} (v : Byte) (h : b ≠ a) : (m.write a v).read b = m.read b := by
  unfold Memory.write
  split
  · exact Memory.read_erase_other m h
  · rw [Memory.read_insert_other _ v h, Memory.read_erase_other m h]

/-! ### The canonical form -/

theorem Memory.wf_nil : Memory.wf [] := ⟨List.Pairwise.nil, by simp⟩

theorem Memory.wf_erase {m : Memory} (a : Nat) (h : m.wf) : (m.erase a).wf :=
  ⟨h.1.filter _, fun c hc => h.2 c (List.mem_filter.mp hc).1⟩

theorem Memory.mem_insert {m : Memory} {a : Nat} {v : Byte} {c : Host.Cell} (h : c ∈ m.insert a v) :
    c = (a, v) ∨ c ∈ m := by
  induction m with
  | nil => exact .inl (by simpa [Memory.insert] using h)
  | cons d m ih =>
    simp only [Memory.insert] at h
    split at h
    · simpa using h
    · obtain h | h := List.mem_cons.mp h
      · exact .inr (h ▸ List.mem_cons_self)
      · exact (ih h).imp id (List.mem_cons_of_mem _)

theorem Memory.wf_insert {m : Memory} {a : Nat} {v : Byte} (h : m.wf) (hfree : ∀ c ∈ m, c.1 ≠ a)
    (ha : a < Config.memSize) (hv : v ≠ Config.resetByte) : (m.insert a v).wf := by
  refine ⟨?_, fun c hc => ?_⟩
  · induction m with
    | nil => simp [Memory.insert]
    | cons d m ih =>
      obtain ⟨hd, hm⟩ := List.pairwise_cons.mp h.1
      have ih := ih ⟨hm, fun c hc => h.2 c (List.mem_cons_of_mem _ hc)⟩
        fun c hc => hfree c (List.mem_cons_of_mem _ hc)
      simp only [Memory.insert]
      split
      · next hlt =>
        refine List.pairwise_cons.mpr ⟨fun c hc => ?_, h.1⟩
        obtain hc | hc := List.mem_cons.mp hc
        · exact hc ▸ hlt
        · exact Nat.lt_trans hlt (hd c hc)
      · next hnlt =>
        refine List.pairwise_cons.mpr ⟨fun c hc => ?_, ih⟩
        obtain hc | hc := Memory.mem_insert hc
        · have := hfree d List.mem_cons_self
          rw [hc]; show d.1 < a; omega
        · exact hd c hc
  · obtain hc | hc := Memory.mem_insert hc
    · rw [hc]; exact ⟨ha, hv⟩
    · exact h.2 c hc

/-- A write keeps the canonical form. -/
theorem Memory.wf_write {m : Memory} {a : Nat} (v : Byte) (h : m.wf) (ha : a < Config.memSize) : (m.write a v).wf := by
  unfold Memory.write
  split
  · exact Memory.wf_erase a h
  · next hv => exact Memory.wf_insert (Memory.wf_erase a h) (fun c hc => by simpa using (List.mem_filter.mp hc).2) ha hv

/-- Writing some bytes in a row keeps the canonical form, where there are cells for all of them. -/
theorem Memory.wf_writeFrom {m : Memory} {a : Nat} {bs : List Byte} (h : m.wf) (ha : a + bs.length ≤ Config.memSize) :
    (m.writeFrom a bs).wf := by
  induction bs generalizing m a with
  | nil => exact h
  | cons b bs ih =>
    simp only [List.length_cons] at ha
    exact ih (Memory.wf_write b h (by omega)) (by omega)

/-- Placing bytes keeps the canonical form, wherever they are placed. -/
theorem Memory.wf_place {m : Memory} (a : Nat) (bs : List Byte) (h : m.wf) : (m.place a bs).wf := by
  unfold Memory.place
  by_cases ha : a ≤ Config.memSize
  · exact Memory.wf_writeFrom h (by rw [List.length_take]; omega)
  · have : Config.memSize - a = 0 := by omega
    rw [this]; exact h

/-- A memory write of the core keeps the canonical form: its address has 8 bits (R53). -/
theorem State.wf_memWrite {s : State} (a v : Byte) (h : Memory.wf s.mem) : Memory.wf (s.memWrite a v).mem :=
  Memory.wf_write v h a.isLt

theorem State.wf_reset : Memory.wf State.reset.mem := Memory.wf_nil

end Sys2Proof.Machine
end

