-- ==== Sys2Proof/Laws/State.lean ====
section
/-! SUPPORT. What each state update does to each field, one lemma a field, so that no proof unfolds a record update. -/

namespace Sys2Proof.Machine

/-! ### `setReg` -/

@[simp] theorem State.setReg_regs (s : State) (r : Reg) (v : Byte) : (s.setReg r v).regs = s.regs.set r v := rfl
@[simp] theorem State.setReg_fl (s : State) (r : Reg) (v : Byte) : (s.setReg r v).fl = s.fl := rfl
@[simp] theorem State.setReg_pc (s : State) (r : Reg) (v : Byte) : (s.setReg r v).pc = s.pc := rfl
@[simp] theorem State.setReg_ir (s : State) (r : Reg) (v : Byte) : (s.setReg r v).ir = s.ir := rfl
@[simp] theorem State.setReg_run (s : State) (r : Reg) (v : Byte) : (s.setReg r v).run = s.run := rfl
@[simp] theorem State.setReg_faultCause (s : State) (r : Reg) (v : Byte) : (s.setReg r v).faultCause = s.faultCause := rfl
@[simp] theorem State.setReg_faultInfo (s : State) (r : Reg) (v : Byte) : (s.setReg r v).faultInfo = s.faultInfo := rfl
@[simp] theorem State.setReg_mem (s : State) (r : Reg) (v : Byte) : (s.setReg r v).mem = s.mem := rfl
@[simp] theorem State.setReg_out (s : State) (r : Reg) (v : Byte) : (s.setReg r v).out = s.out := rfl

/-! ### `setSp` -/

@[simp] theorem State.setSp_regs (s : State) (v : Byte) : (s.setSp v).regs = s.regs.set .r7 v := rfl
@[simp] theorem State.setSp_fl (s : State) (v : Byte) : (s.setSp v).fl = s.fl := rfl
@[simp] theorem State.setSp_pc (s : State) (v : Byte) : (s.setSp v).pc = s.pc := rfl
@[simp] theorem State.setSp_ir (s : State) (v : Byte) : (s.setSp v).ir = s.ir := rfl
@[simp] theorem State.setSp_run (s : State) (v : Byte) : (s.setSp v).run = s.run := rfl
@[simp] theorem State.setSp_faultCause (s : State) (v : Byte) : (s.setSp v).faultCause = s.faultCause := rfl
@[simp] theorem State.setSp_faultInfo (s : State) (v : Byte) : (s.setSp v).faultInfo = s.faultInfo := rfl
@[simp] theorem State.setSp_mem (s : State) (v : Byte) : (s.setSp v).mem = s.mem := rfl
@[simp] theorem State.setSp_out (s : State) (v : Byte) : (s.setSp v).out = s.out := rfl

/-! ### `setPc` -/

@[simp] theorem State.setPc_regs (s : State) (a : Word9) : (s.setPc a).regs = s.regs := rfl
@[simp] theorem State.setPc_fl (s : State) (a : Word9) : (s.setPc a).fl = s.fl := rfl
@[simp] theorem State.setPc_pc (s : State) (a : Word9) : (s.setPc a).pc = a := rfl
@[simp] theorem State.setPc_ir (s : State) (a : Word9) : (s.setPc a).ir = s.ir := rfl
@[simp] theorem State.setPc_run (s : State) (a : Word9) : (s.setPc a).run = s.run := rfl
@[simp] theorem State.setPc_faultCause (s : State) (a : Word9) : (s.setPc a).faultCause = s.faultCause := rfl
@[simp] theorem State.setPc_faultInfo (s : State) (a : Word9) : (s.setPc a).faultInfo = s.faultInfo := rfl
@[simp] theorem State.setPc_mem (s : State) (a : Word9) : (s.setPc a).mem = s.mem := rfl
@[simp] theorem State.setPc_out (s : State) (a : Word9) : (s.setPc a).out = s.out := rfl
@[simp] theorem State.setPc_reg (s : State) (a : Word9) (q : Reg) : (s.setPc a).reg q = s.reg q := rfl

/-! ### `setFl` -/

@[simp] theorem State.setFl_regs (s : State) (v : Byte) : (s.setFl v).regs = s.regs := rfl
@[simp] theorem State.setFl_fl (s : State) (v : Byte) : (s.setFl v).fl = v &&& 0b00000111 := rfl
@[simp] theorem State.setFl_pc (s : State) (v : Byte) : (s.setFl v).pc = s.pc := rfl
@[simp] theorem State.setFl_ir (s : State) (v : Byte) : (s.setFl v).ir = s.ir := rfl
@[simp] theorem State.setFl_run (s : State) (v : Byte) : (s.setFl v).run = s.run := rfl
@[simp] theorem State.setFl_faultCause (s : State) (v : Byte) : (s.setFl v).faultCause = s.faultCause := rfl
@[simp] theorem State.setFl_faultInfo (s : State) (v : Byte) : (s.setFl v).faultInfo = s.faultInfo := rfl
@[simp] theorem State.setFl_mem (s : State) (v : Byte) : (s.setFl v).mem = s.mem := rfl
@[simp] theorem State.setFl_out (s : State) (v : Byte) : (s.setFl v).out = s.out := rfl
@[simp] theorem State.setFl_reg (s : State) (v : Byte) (q : Reg) : (s.setFl v).reg q = s.reg q := rfl

/-! ### `memWrite` -/

@[simp] theorem State.memWrite_regs (s : State) (a v : Byte) : (s.memWrite a v).regs = s.regs := rfl
@[simp] theorem State.memWrite_fl (s : State) (a v : Byte) : (s.memWrite a v).fl = s.fl := rfl
@[simp] theorem State.memWrite_pc (s : State) (a v : Byte) : (s.memWrite a v).pc = s.pc := rfl
@[simp] theorem State.memWrite_ir (s : State) (a v : Byte) : (s.memWrite a v).ir = s.ir := rfl
@[simp] theorem State.memWrite_run (s : State) (a v : Byte) : (s.memWrite a v).run = s.run := rfl
@[simp] theorem State.memWrite_faultCause (s : State) (a v : Byte) : (s.memWrite a v).faultCause = s.faultCause := rfl
@[simp] theorem State.memWrite_faultInfo (s : State) (a v : Byte) : (s.memWrite a v).faultInfo = s.faultInfo := rfl
@[simp] theorem State.memWrite_mem (s : State) (a v : Byte) : (s.memWrite a v).mem = Memory.write s.mem a.toNat v := rfl
@[simp] theorem State.memWrite_out (s : State) (a v : Byte) : (s.memWrite a v).out = s.out := rfl
@[simp] theorem State.memWrite_reg (s : State) (a v : Byte) (q : Reg) : (s.memWrite a v).reg q = s.reg q := rfl

/-! ### `output` -/

@[simp] theorem State.output_regs (s : State) (k : OutputKind) (v : Byte) : (s.output k v).regs = s.regs := rfl
@[simp] theorem State.output_fl (s : State) (k : OutputKind) (v : Byte) : (s.output k v).fl = s.fl := rfl
@[simp] theorem State.output_pc (s : State) (k : OutputKind) (v : Byte) : (s.output k v).pc = s.pc := rfl
@[simp] theorem State.output_ir (s : State) (k : OutputKind) (v : Byte) : (s.output k v).ir = s.ir := rfl
@[simp] theorem State.output_run (s : State) (k : OutputKind) (v : Byte) : (s.output k v).run = s.run := rfl
@[simp] theorem State.output_faultCause (s : State) (k : OutputKind) (v : Byte) : (s.output k v).faultCause = s.faultCause := rfl
@[simp] theorem State.output_faultInfo (s : State) (k : OutputKind) (v : Byte) : (s.output k v).faultInfo = s.faultInfo := rfl
@[simp] theorem State.output_mem (s : State) (k : OutputKind) (v : Byte) : (s.output k v).mem = s.mem := rfl
@[simp] theorem State.output_out (s : State) (k : OutputKind) (v : Byte) : (s.output k v).out = s.out ++ [⟨k, v⟩] := rfl
@[simp] theorem State.output_reg (s : State) (k : OutputKind) (v : Byte) (q : Reg) : (s.output k v).reg q = s.reg q := rfl

/-! ### `halt` -/

@[simp] theorem State.halt_regs (s : State) : s.halt.regs = s.regs := rfl
@[simp] theorem State.halt_fl (s : State) : s.halt.fl = s.fl := rfl
@[simp] theorem State.halt_pc (s : State) : s.halt.pc = s.pc := rfl
@[simp] theorem State.halt_ir (s : State) : s.halt.ir = s.ir := rfl
@[simp] theorem State.halt_run (s : State) : s.halt.run = .halted := rfl
@[simp] theorem State.halt_faultCause (s : State) : s.halt.faultCause = s.faultCause := rfl
@[simp] theorem State.halt_faultInfo (s : State) : s.halt.faultInfo = s.faultInfo := rfl
@[simp] theorem State.halt_mem (s : State) : s.halt.mem = s.mem := rfl
@[simp] theorem State.halt_out (s : State) : s.halt.out = s.out := rfl
@[simp] theorem State.halt_reg (s : State) (q : Reg) : s.halt.reg q = s.reg q := rfl

/-! ### `raise` -/

@[simp] theorem State.raise_regs (s : State) (c : FaultCause) (n : Word9) : (s.raise c n).regs = s.regs := rfl
@[simp] theorem State.raise_fl (s : State) (c : FaultCause) (n : Word9) : (s.raise c n).fl = s.fl := rfl
@[simp] theorem State.raise_pc (s : State) (c : FaultCause) (n : Word9) : (s.raise c n).pc = s.pc := rfl
@[simp] theorem State.raise_ir (s : State) (c : FaultCause) (n : Word9) : (s.raise c n).ir = s.ir := rfl
@[simp] theorem State.raise_run (s : State) (c : FaultCause) (n : Word9) : (s.raise c n).run = .faulted := rfl
@[simp] theorem State.raise_faultCause (s : State) (c : FaultCause) (n : Word9) : (s.raise c n).faultCause = c := rfl
@[simp] theorem State.raise_faultInfo (s : State) (c : FaultCause) (n : Word9) : (s.raise c n).faultInfo = n := rfl
@[simp] theorem State.raise_mem (s : State) (c : FaultCause) (n : Word9) : (s.raise c n).mem = s.mem := rfl
@[simp] theorem State.raise_out (s : State) (c : FaultCause) (n : Word9) : (s.raise c n).out = s.out := rfl
@[simp] theorem State.raise_reg (s : State) (c : FaultCause) (n : Word9) (q : Reg) : (s.raise c n).reg q = s.reg q := rfl

/-! ### `fetchOpcode` -/

@[simp] theorem State.fetchOpcode_regs (s : State) : s.fetchOpcode.regs = s.regs := rfl
@[simp] theorem State.fetchOpcode_fl (s : State) : s.fetchOpcode.fl = s.fl := rfl
@[simp] theorem State.fetchOpcode_pc (s : State) : s.fetchOpcode.pc = s.pc := rfl
@[simp] theorem State.fetchOpcode_ir (s : State) : s.fetchOpcode.ir = Memory.read s.mem s.pc.toNat := rfl
@[simp] theorem State.fetchOpcode_run (s : State) : s.fetchOpcode.run = s.run := rfl
@[simp] theorem State.fetchOpcode_faultCause (s : State) : s.fetchOpcode.faultCause = s.faultCause := rfl
@[simp] theorem State.fetchOpcode_faultInfo (s : State) : s.fetchOpcode.faultInfo = s.faultInfo := rfl
@[simp] theorem State.fetchOpcode_mem (s : State) : s.fetchOpcode.mem = s.mem := rfl
@[simp] theorem State.fetchOpcode_out (s : State) : s.fetchOpcode.out = s.out := rfl
@[simp] theorem State.fetchOpcode_reg (s : State) (q : Reg) : s.fetchOpcode.reg q = s.reg q := rfl

/-! ### `advance` -/

@[simp] theorem State.advance_regs (s : State) (i : Instr) : (s.advance i).regs = s.regs := rfl
@[simp] theorem State.advance_fl (s : State) (i : Instr) : (s.advance i).fl = s.fl := rfl
@[simp] theorem State.advance_pc (s : State) (i : Instr) : (s.advance i).pc = BitVec.ofNat 9 (s.addressAfter i) := rfl
@[simp] theorem State.advance_ir (s : State) (i : Instr) : (s.advance i).ir = s.ir := rfl
@[simp] theorem State.advance_run (s : State) (i : Instr) : (s.advance i).run = s.run := rfl
@[simp] theorem State.advance_faultCause (s : State) (i : Instr) : (s.advance i).faultCause = s.faultCause := rfl
@[simp] theorem State.advance_faultInfo (s : State) (i : Instr) : (s.advance i).faultInfo = s.faultInfo := rfl
@[simp] theorem State.advance_mem (s : State) (i : Instr) : (s.advance i).mem = s.mem := rfl
@[simp] theorem State.advance_out (s : State) (i : Instr) : (s.advance i).out = s.out := rfl
@[simp] theorem State.advance_reg (s : State) (i : Instr) (q : Reg) : (s.advance i).reg q = s.reg q := rfl

/-! ### `finish` -/

@[simp] theorem State.finish_regs (s : State) (i : Instr) : (s.finish i).regs = s.regs := by
  unfold State.finish; split <;> rfl
@[simp] theorem State.finish_fl (s : State) (i : Instr) : (s.finish i).fl = s.fl := by
  unfold State.finish; split <;> rfl
@[simp] theorem State.finish_ir (s : State) (i : Instr) : (s.finish i).ir = s.ir := by
  unfold State.finish; split <;> rfl
@[simp] theorem State.finish_run (s : State) (i : Instr) : (s.finish i).run = s.run := by
  unfold State.finish; split <;> rfl
@[simp] theorem State.finish_faultCause (s : State) (i : Instr) : (s.finish i).faultCause = s.faultCause := by
  unfold State.finish; split <;> rfl
@[simp] theorem State.finish_faultInfo (s : State) (i : Instr) : (s.finish i).faultInfo = s.faultInfo := by
  unfold State.finish; split <;> rfl
@[simp] theorem State.finish_mem (s : State) (i : Instr) : (s.finish i).mem = s.mem := by
  unfold State.finish; split <;> rfl
@[simp] theorem State.finish_out (s : State) (i : Instr) : (s.finish i).out = s.out := by
  unfold State.finish; split <;> rfl
@[simp] theorem State.finish_reg (s : State) (i : Instr) (q : Reg) : (s.finish i).reg q = s.reg q := by
  unfold State.finish; split <;> rfl

/-- An opcode whose sets_pc bit is clear leaves PC past the instruction (R98). -/
theorem State.finish_pc_advances (s : State) (i : Instr) (h : setsPc (i.opcode Config.params) = false) :
    (s.finish i).pc = BitVec.ofNat 9 (s.addressAfter i) := by
  simp [State.finish, h]

/-- An opcode whose sets_pc bit is set leaves PC as its handler left it (R98). -/
theorem State.finish_sets_pc (s : State) (i : Instr) (h : setsPc (i.opcode Config.params) = true) :
    s.finish i = s := by
  simp [State.finish, h]

/-! ### Registers -/

@[simp] theorem RegFile.get_set_self (f : RegFile) (r : Reg) (v : Byte) : (f.set r v).get r = v := by
  cases r <;> rfl

theorem RegFile.get_set_other (f : RegFile) {r q : Reg} (v : Byte) (h : q ≠ r) : (f.set r v).get q = f.get q := by
  cases r <;> cases q <;> first | rfl | exact absurd rfl h

/-- Two register files that read alike are the same. -/
theorem RegFile.ext_get {f g : RegFile} (h : ∀ r, f.get r = g.get r) : f = g := by
  cases f; cases g
  have h0 := h .r0; have h1 := h .r1; have h2 := h .r2; have h3 := h .r3
  have h4 := h .r4; have h5 := h .r5; have h6 := h .r6; have h7 := h .r7
  simp_all [RegFile.get]

@[simp] theorem State.reg_setReg_self (s : State) (r : Reg) (v : Byte) : (s.setReg r v).reg r = v :=
  RegFile.get_set_self _ _ _

/-- A register write leaves every other register alone. -/
theorem State.reg_setReg_other (s : State) {r q : Reg} (v : Byte) (h : q ≠ r) : (s.setReg r v).reg q = s.reg q :=
  RegFile.get_set_other _ _ h

@[simp] theorem State.reg_setSp_self (s : State) (v : Byte) : (s.setSp v).reg .r7 = v :=
  State.reg_setReg_self s .r7 v

/-- A write of the stack pointer leaves every other register alone. -/
theorem State.reg_setSp_other (s : State) {q : Reg} (v : Byte) (h : q ≠ .r7) : (s.setSp v).reg q = s.reg q :=
  State.reg_setReg_other s v h

/-! ### Flags -/

/-- A compare leaves FL with one of three values (R27, R123). -/
theorem compareFlags_cases (x y : Byte) :
    (x = y ∧ compareFlags x y = 0x01) ∨ (y.toNat < x.toNat ∧ compareFlags x y = 0x02) ∨
    (x.toNat < y.toNat ∧ compareFlags x y = 0x04) := by
  unfold compareFlags
  split
  · next h => exact .inl ⟨h, rfl⟩
  · next hne =>
    have : x.toNat ≠ y.toNat := fun h => hne (BitVec.eq_of_toNat_eq h)
    split
    · next h => exact .inr (.inl ⟨h, rfl⟩)
    · next h => exact .inr (.inr ⟨by omega, rfl⟩)

/-- The mask of the hardwired bits changes no value a compare writes (R26). -/
theorem compareFlags_masked (x y : Byte) : compareFlags x y &&& 0b00000111 = compareFlags x y := by
  obtain ⟨-, h⟩ | ⟨-, h⟩ | ⟨-, h⟩ := compareFlags_cases x y <;> rw [h] <;> rfl

end Sys2Proof.Machine
end

