-- ==== Sys2Proof/Laws/Ops.lean ====
section
/-! SUPPORT. One lemma for each shared operation that says everything it can do; proofs cite these. -/

namespace Sys2Proof.Machine

/-! ### Operands -/

/-- An operand byte names a register exactly when it is the register's index (R76). -/
theorem Reg.ofByte_eq_some_iff (a : Byte) (r : Reg) : Reg.ofByte a = some r ↔ a.toNat = r.index := by
  unfold Reg.ofByte
  split <;> cases r <;> simp_all [Reg.index]

/-- An operand byte names no register exactly when it is 8 or more (R77). -/
theorem Reg.ofByte_eq_none_iff (a : Byte) : Reg.ofByte a = none ↔ 8 ≤ a.toNat := by
  unfold Reg.ofByte
  split <;> simp_all
  omega

/-- A register operand byte either is the index of a register or is 8 or more. -/
theorem Reg.of_byte_cases (a : Byte) : (∃ r : Reg, a.toNat = r.index) ∨ 8 ≤ a.toNat := by
  cases h : Reg.ofByte a with
  | some r => exact .inl ⟨r, (Reg.ofByte_eq_some_iff a r).mp h⟩
  | none => exact .inr ((Reg.ofByte_eq_none_iff a).mp h)

/-- The register check passes an operand that names a register to the handler (R96). -/
theorem withReg_of_index {a : Byte} {r : Reg} (h : a.toNat = r.index) (s : State) (k : Reg → Result) :
    withReg a s k = k r := by
  simp [withReg, (Reg.ofByte_eq_some_iff a r).mpr h]

/-- The register check raises InvalidRegister on an operand of 8 or more (R96). -/
theorem withReg_of_invalid {a : Byte} (h : 8 ≤ a.toNat) (s : State) (k : Reg → Result) :
    withReg a s k = .next (s.raise .invalidRegister a.zext9) := by
  simp [withReg, (Reg.ofByte_eq_none_iff a).mpr h]

/-- Both register checks pass (R96). -/
theorem withTwoRegs_of_index {a b : Byte} {ra rb : Reg} (ha : a.toNat = ra.index) (hb : b.toNat = rb.index) (s : State)
    (k : Reg → Reg → Result) : withTwoRegs a b s k = k ra rb := by
  simp [withTwoRegs, withReg_of_index ha, withReg_of_index hb]

/-- Everything a register check can do. -/
theorem withReg_cases (a : Byte) (s : State) (k : Reg → Result) :
    (∃ r : Reg, a.toNat = r.index ∧ withReg a s k = k r) ∨
    (8 ≤ a.toNat ∧ withReg a s k = .next (s.raise .invalidRegister a.zext9)) := by
  obtain ⟨r, hr⟩ | h := Reg.of_byte_cases a
  · exact .inl ⟨r, hr, withReg_of_index hr s k⟩
  · exact .inr ⟨h, withReg_of_invalid h s k⟩

/-- Everything the two register checks can do: operand 1 is checked first. -/
theorem withTwoRegs_cases (a b : Byte) (s : State) (k : Reg → Reg → Result) :
    (∃ ra rb : Reg, a.toNat = ra.index ∧ b.toNat = rb.index ∧ withTwoRegs a b s k = k ra rb) ∨
    (8 ≤ a.toNat ∧ withTwoRegs a b s k = .next (s.raise .invalidRegister a.zext9)) ∨
    (a.toNat < 8 ∧ 8 ≤ b.toNat ∧ withTwoRegs a b s k = .next (s.raise .invalidRegister b.zext9)) := by
  obtain ⟨ra, ha, h⟩ | ⟨ha, h⟩ := withReg_cases a s fun ra => withReg b s fun rb => k ra rb
  · obtain ⟨rb, hb, h'⟩ | ⟨hb, h'⟩ := withReg_cases b s (k ra)
    · exact .inl ⟨ra, rb, ha, hb, h.trans h'⟩
    · exact .inr (.inr ⟨by cases ra <;> simp_all [Reg.index], hb, h.trans h'⟩)
  · exact .inr (.inl ⟨ha, h⟩)

/-! ### The stack engine -/

/-- Everything a push can do (R150, R152). -/
theorem State.push_cases (s : State) (v : Byte) :
    (s.sp = 0 ∧ s.push v = none) ∨
    (s.sp ≠ 0 ∧ s.push v = some ((s.setSp (s.sp - 1)).memWrite (s.sp - 1) v)) := by
  by_cases h : s.sp = 0
  · exact .inl ⟨h, if_pos h⟩
  · exact .inr ⟨h, if_neg h⟩

/-- Everything a pop can do (R151, R152). -/
theorem State.pop_cases (s : State) :
    (s.sp = 255 ∧ s.pop = none) ∨ (s.sp ≠ 255 ∧ s.pop = some (s.memRead s.sp, s.setSp (s.sp + 1))) := by
  by_cases h : s.sp = 255
  · exact .inl ⟨h, if_pos h⟩
  · exact .inr ⟨h, if_neg h⟩

/-- SP - 1, where SP is not 0, is exact. -/
theorem sp_sub_one_toNat {x : Byte} (h : x ≠ 0) : (x - 1).toNat = x.toNat - 1 := by
  bv_omega

/-- SP + 1, where SP is not 255, is exact. -/
theorem sp_add_one_toNat {x : Byte} (h : x ≠ 255) : (x + 1).toNat = x.toNat + 1 := by
  bv_omega

/-! ### Fetch -/

/-- No bytes are there to decode at PC = 256 or above (R92). -/
theorem State.fetchWindow_past_memory {s : State} (h : 256 ≤ s.pc.toNat) : s.fetchWindow = [] := by
  have : ¬ s.pc.toNat < Config.memSize := by unfold Config.memSize; omega
  simp [State.fetchWindow, maxInstrBytes, Memory.bytesFrom, this]

/-- One byte is there at PC = 255 (R95). -/
theorem State.fetchWindow_one {s : State} (h : s.pc.toNat = 255) : s.fetchWindow = [Memory.read s.mem 255] := by
  simp [State.fetchWindow, maxInstrBytes, Memory.bytesFrom, h, Config.memSize]

/-- Two bytes are there at PC = 254 (R95). -/
theorem State.fetchWindow_two {s : State} (h : s.pc.toNat = 254) :
    s.fetchWindow = [Memory.read s.mem 254, Memory.read s.mem 255] := by
  simp [State.fetchWindow, maxInstrBytes, Memory.bytesFrom, h, Config.memSize]

/-- Three bytes are there at PC = 253 and below (R95). -/
theorem State.fetchWindow_three {s : State} (h : s.pc.toNat ≤ 253) :
    s.fetchWindow = [Memory.read s.mem s.pc.toNat, Memory.read s.mem (s.pc.toNat + 1),
      Memory.read s.mem (s.pc.toNat + 2)] := by
  have h0 : s.pc.toNat < Config.memSize := by unfold Config.memSize; omega
  have h1 : s.pc.toNat + 1 < Config.memSize := by unfold Config.memSize; omega
  have h2 : s.pc.toNat + 1 + 1 < Config.memSize := by unfold Config.memSize; omega
  simp [State.fetchWindow, maxInstrBytes, Memory.bytesFrom, h0, h1, h2]

/-! ### Sizes -/

/-- The advance does not wrap where the instruction was fetched from memory: PC + size is at most 511 (R98). -/
theorem State.advance_pc_toNat {s : State} (i : Instr) (h : s.addressAfter i < 512) :
    (s.advance i).pc.toNat = s.addressAfter i := by
  simp [BitVec.toNat_ofNat, Nat.mod_eq_of_lt h]

/-! ### The step -/

/-- A Running step runs the decoded instruction. -/
theorem stepWith_of_decode {p : OpcodeParams} {s : State} {i : Instr} {rest : List Byte} (hrun : s.run = .running)
    (h : decode p s.fetchWindow = .ok (i, rest)) : stepWith p s = exec i s.fetchOpcode := by
  simp [stepWith, hrun, h]

/-- A Running step whose bytes are no instruction raises the dispatcher's fault. -/
theorem stepWith_of_error {p : OpcodeParams} {s : State} {e : DecodeError} (hrun : s.run = .running)
    (h : decode p s.fetchWindow = .error e) : stepWith p s = .next (s.raiseDecodeError e) := by
  simp [stepWith, hrun, h]

/-- A core that is not Running stays as it is. -/
theorem stepWith_of_stopped {p : OpcodeParams} {s : State} (hrun : s.run ≠ .running) : stepWith p s = .next s := by
  unfold stepWith State.stayStopped
  cases h : s.run <;> simp_all

/-- Everything a step can do. -/
theorem stepWith_cases (p : OpcodeParams) (s : State) :
    (s.run ≠ .running ∧ stepWith p s = .next s) ∨
    (s.run = .running ∧ ∃ i rest, decode p s.fetchWindow = .ok (i, rest) ∧ stepWith p s = exec i s.fetchOpcode) ∨
    (s.run = .running ∧ ∃ e, decode p s.fetchWindow = .error e ∧ stepWith p s = .next (s.raiseDecodeError e)) := by
  by_cases hrun : s.run = .running
  · cases h : decode p s.fetchWindow with
    | ok x => exact .inr (.inl ⟨hrun, x.1, x.2, rfl, stepWith_of_decode hrun h⟩)
    | error e => exact .inr (.inr ⟨hrun, e, rfl, stepWith_of_error hrun h⟩)
  · exact .inl ⟨hrun, stepWith_of_stopped hrun⟩

end Sys2Proof.Machine
end

