-- ==== Sys2Proof/Laws/Exec.lean ====
section
/-! SUPPORT. Everything an instruction can do, said once: the shapes its next state can have, and that `exec` has no
others. Proofs about all instructions split on these shapes instead of unfolding the meanings. -/

namespace Sys2Proof.Machine

/-- The opcode of an instruction leaves PC to the dispatcher. -/
abbrev AdvancesPc (i : Instr) : Prop := setsPc (i.opcode Config.params) = false

/-- The instructions that write a result or an immediate to operand 1's register (R110, R140). -/
def writesOperandOne : Instr → Bool
  | .not _ | .ldi _ _ | .addi _ _ => true
  | .add _ _ | .sub _ _ | .mul _ _ | .div _ _ | .mod _ _ => true
  | .and _ _ | .or _ _ | .xor _ _ | .shl _ _ | .shr _ _ => true
  | .hlt | .ret | .push _ | .pop _ | .prn _ | .pra _ | .prast _ => false
  | .call _ | .jmp _ | .jeq _ | .jne _ | .cmp _ _ => false

/-- The next states an instruction can have, each with the conditions under which it has it. -/
inductive ExecShape (s : State) : Instr → State → Prop where
  /-- A register operand of 8 or more, the first in operand order (R96). -/
  | invalid {i : Instr} (v : Byte) (hv : i.regOperands.find? (fun b => decide (8 ≤ b.toNat)) = some v) :
      ExecShape s i (s.raise .invalidRegister v.zext9)
  /-- DIV or MOD by zero (R182). -/
  | divZero {i : Instr} (a b : Byte) (ra rb : Reg) (hi : i = .div a b ∨ i = .mod a b) (ha : a.toNat = ra.index)
      (hb : b.toNat = rb.index) (hz : s.reg rb = 0) : ExecShape s i (s.raise .arithmeticFault 0)
  /-- An ALU result or an immediate, written to operand 1's register (R110, R140). -/
  | writes {i : Instr} (a : Byte) (ra : Reg) (v : Byte) (hop : i.regOperands.head? = some a) (ha : a.toNat = ra.index)
      (hw : writesOperandOne i = true) (hpc : AdvancesPc i)
      (hd : ∀ b c rc, i = .div b c ∨ i = .mod b c → c.toNat = rc.index → s.reg rc ≠ 0)
      (hok : i.wellFormed = true) : ExecShape s i ((s.setReg ra v).finish i)
  /-- CMP (R123). -/
  | compares (a b : Byte) (ra rb : Reg) (ha : a.toNat = ra.index) (hb : b.toNat = rb.index) :
      ExecShape s (.cmp a b) ((s.setFl (compareFlags (s.reg ra) (s.reg rb))).finish (.cmp a b))
  /-- PRN, PRA and PRAST (R141 to R143). -/
  | prints {i : Instr} (k : OutputKind) (a : Byte) (ra : Reg)
      (hi : (k = .dec ∧ i = .prn a) ∨ (k = .chr ∧ i = .pra a) ∨ (k = .stars ∧ i = .prast a)) (ha : a.toNat = ra.index) :
      ExecShape s i ((s.output k (s.reg ra)).finish i)
  /-- HLT (R101). -/
  | halts : ExecShape s .hlt (s.halt.finish .hlt)
  /-- A jump that is taken (R170 to R172). -/
  | jumps {i : Instr} (a : Byte) (ra : Reg) (hi : i = .jmp a ∨ i = .jeq a ∨ i = .jne a) (ha : a.toNat = ra.index) :
      ExecShape s i (s.setPc (s.reg ra).zext9)
  /-- A conditional jump that is not taken (R173). -/
  | fallsThrough {i : Instr} (a : Byte) (ra : Reg) (hi : i = .jeq a ∨ i = .jne a) (ha : a.toNat = ra.index) :
      ExecShape s i (s.advance i)
  /-- PUSH (R153). -/
  | pushes (a : Byte) (ra : Reg) (ha : a.toNat = ra.index) (hsp : s.sp ≠ 0) :
      ExecShape s (.push a) (((s.setSp (s.sp - 1)).memWrite (s.sp - 1) (s.reg ra)).finish (.push a))
  /-- POP (R154). -/
  | pops (a : Byte) (ra : Reg) (ha : a.toNat = ra.index) (hsp : s.sp ≠ 255) :
      ExecShape s (.pop a) (((s.setSp (s.sp + 1)).setReg ra (s.memRead s.sp)).finish (.pop a))
  /-- CALL (R155). -/
  | calls (a : Byte) (ra : Reg) (ha : a.toNat = ra.index) (hret : s.addressAfter (.call a) < Config.memSize)
      (hsp : s.sp ≠ 0) : ExecShape s (.call a)
        (((s.setSp (s.sp - 1)).memWrite (s.sp - 1) (BitVec.ofNat 8 (s.addressAfter (.call a)))).setPc (s.reg ra).zext9)
  /-- RET (R156). -/
  | returns (hsp : s.sp ≠ 255) : ExecShape s .ret ((s.setSp (s.sp + 1)).setPc (s.memRead s.sp).zext9)
  /-- A CALL whose return address does not fit (R155). -/
  | returnTooFar (a : Byte) (ra : Reg) (ha : a.toNat = ra.index) (hret : Config.memSize ≤ s.addressAfter (.call a)) :
      ExecShape s (.call a) (s.raise .outOfBounds (BitVec.ofNat 9 (s.addressAfter (.call a))))
  /-- A push at SP = 0 (R152). -/
  | pushExhausts {i : Instr} (a : Byte) (ra : Reg)
      (hi : i = .push a ∨ (i = .call a ∧ s.addressAfter (.call a) < Config.memSize)) (ha : a.toNat = ra.index)
      (hsp : s.sp = 0) : ExecShape s i (s.raise .stackExhausted 0)
  /-- A pop at SP = 255 (R152). -/
  | popExhausts {i : Instr} (hi : (∃ (a : Byte) (ra : Reg), i = .pop a ∧ a.toNat = ra.index) ∨ i = .ret)
      (hsp : s.sp = 255) : ExecShape s i (s.raise .stackExhausted 0)

/-- A register's index is below 8. -/
theorem Reg.index_lt (r : Reg) : r.index < 8 := by cases r <;> decide

/-- Two registers with one index are one register. -/
theorem Reg.index_inj {r q : Reg} (h : r.index = q.index) : r = q := by cases r <;> cases q <;> first | rfl | cases h

/-- A two-register operation writes operand 1's register, or an operand is invalid (R96, R110). -/
theorem twoRegAlu_shape {i : Instr} {a b : Byte} (f : Byte → Byte → Byte) (s : State) (hops : i.regOperands = [a, b])
    (hw : writesOperandOne i = true) (hpc : AdvancesPc i) (hdiv : ∀ b c, i ≠ .div b c ∧ i ≠ .mod b c) :
    ∃ t, twoRegAlu i a b f s = .next t ∧ ExecShape s i t := by
  unfold twoRegAlu
  obtain ⟨ra, rb, ha, hb, e⟩ | ⟨ha, e⟩ | ⟨ha, hb, e⟩ := withTwoRegs_cases a b s
    fun ra rb => .next ((s.setReg ra (f (s.reg ra) (s.reg rb))).finish i)
  · have := ra.index_lt; have := rb.index_lt
    refine ⟨_, e, .writes a ra _ (by rw [hops]; rfl) ha hw hpc (fun b c _ h => ?_) ?_⟩
    · obtain h | h := h
      · exact absurd h (hdiv b c).1
      · exact absurd h (hdiv b c).2
    · simp [Instr.wellFormed, hops, namesRegister]; omega
  · exact ⟨_, e, .invalid a (by simp [hops, ha])⟩
  · exact ⟨_, e, .invalid b (by simp [hops, hb, ha])⟩

/-- DIV and MOD write operand 1's register, or fault on a divisor of 0 or an invalid operand (R114, R115). -/
theorem twoRegDivide_shape {i : Instr} {a b : Byte} (f : Byte → Byte → Byte) (s : State)
    (hi : i = .div a b ∨ i = .mod a b) : ∃ t, twoRegDivide i a b f s = .next t ∧ ExecShape s i t := by
  have hops : i.regOperands = [a, b] := by obtain rfl | rfl := hi <;> rfl
  unfold twoRegDivide
  obtain ⟨ra, rb, ha, hb, e⟩ | ⟨ha, e⟩ | ⟨ha, hb, e⟩ := withTwoRegs_cases a b s
    fun ra rb => if s.reg rb = 0 then .next (s.raise .arithmeticFault 0)
      else .next ((s.setReg ra (f (s.reg ra) (s.reg rb))).finish i)
  · by_cases hz : s.reg rb = 0
    · exact ⟨_, e.trans (if_pos hz), .divZero a b ra rb hi ha hb hz⟩
    · have := ra.index_lt; have := rb.index_lt
      refine ⟨_, e.trans (if_neg hz), .writes a ra _ (by rw [hops]; rfl) ha ?_ ?_ ?_ ?_⟩
      · obtain rfl | rfl := hi <;> rfl
      · obtain rfl | rfl := hi <;> exact setsPc_opcode _
      · intro b' c' rc h hc
        have : c' = b := by obtain rfl | rfl := hi <;> obtain h | h := h <;> cases h <;> rfl
        subst this
        exact Reg.index_inj (hb.symm.trans hc) ▸ hz
      · simp [Instr.wellFormed, hops, namesRegister]; omega
  · exact ⟨_, e, .invalid a (by simp [hops, ha])⟩
  · exact ⟨_, e, .invalid b (by simp [hops, hb, ha])⟩

/-- An instruction with one register operand does what its handler does, or the operand is invalid (R96). -/
theorem withReg_shape {i : Instr} {a : Byte} {s : State} {k : Reg → Result} (hops : i.regOperands = [a])
    (hk : ∀ ra : Reg, a.toNat = ra.index → ∃ t, k ra = .next t ∧ ExecShape s i t) :
    ∃ t, withReg a s k = .next t ∧ ExecShape s i t := by
  obtain ⟨ra, ha, e⟩ | ⟨ha, e⟩ := withReg_cases a s k
  · obtain ⟨t, ht, hs⟩ := hk ra ha
    exact ⟨t, e.trans ht, hs⟩
  · exact ⟨_, e, .invalid a (by simp [hops, ha])⟩

/-- An instruction with one register operand that writes it. -/
theorem withReg_writes {i : Instr} {a : Byte} {s : State} {v : Reg → Byte} (hops : i.regOperands = [a])
    (hw : writesOperandOne i = true) (hpc : AdvancesPc i) (hdiv : ∀ b c, i ≠ .div b c ∧ i ≠ .mod b c) :
    ∃ t, withReg a s (fun ra => .next ((s.setReg ra (v ra)).finish i)) = .next t ∧ ExecShape s i t :=
  withReg_shape hops fun ra ha => by
    have := ra.index_lt
    refine ⟨_, rfl, .writes a ra _ (by rw [hops]; rfl) ha hw hpc (fun b c _ h => ?_) ?_⟩
    · obtain h | h := h
      · exact absurd h (hdiv b c).1
      · exact absurd h (hdiv b c).2
    · simp [Instr.wellFormed, hops, namesRegister]; omega

/-- A jump goes to its register or falls through, or the operand is invalid. -/
theorem jumpIf_shape {i : Instr} {a : Byte} (taken : Bool) (s : State)
    (hi : i = .jmp a ∧ taken = true ∨ i = .jeq a ∨ i = .jne a) :
    ∃ t, jumpIf taken i a s = .next t ∧ ExecShape s i t := by
  have hops : i.regOperands = [a] := by obtain ⟨rfl, -⟩ | rfl | rfl := hi <;> rfl
  have hpc : setsPc (i.opcode Config.params) = true := by obtain ⟨rfl, -⟩ | rfl | rfl := hi <;> exact setsPc_opcode _
  refine withReg_shape hops fun ra ha => ⟨_, rfl, ?_⟩
  rw [State.finish_sets_pc _ _ hpc]
  cases taken with
  | true => exact .jumps a ra (hi.imp And.left id) ha
  | false =>
    obtain ⟨-, h⟩ | h := hi
    · cases h
    · exact .fallsThrough a ra h ha

/-- A print sends one event, or the operand is invalid. -/
theorem printReg_shape {i : Instr} {a : Byte} (k : OutputKind) (s : State)
    (hi : (k = .dec ∧ i = .prn a) ∨ (k = .chr ∧ i = .pra a) ∨ (k = .stars ∧ i = .prast a)) :
    ∃ t, printReg i k a s = .next t ∧ ExecShape s i t :=
  withReg_shape (by obtain ⟨-, rfl⟩ | ⟨-, rfl⟩ | ⟨-, rfl⟩ := hi <;> rfl) fun ra ha => ⟨_, rfl, .prints k a ra hi ha⟩

theorem execPush_shape (a : Byte) (s : State) : ∃ t, execPush a s = .next t ∧ ExecShape s (.push a) t :=
  withReg_shape rfl fun ra ha => by
    obtain ⟨hsp, e⟩ | ⟨hsp, e⟩ := s.push_cases (s.reg ra)
    · exact ⟨_, by rw [e]; rfl, .pushExhausts a ra (.inl rfl) ha hsp⟩
    · exact ⟨_, by rw [e], .pushes a ra ha hsp⟩

theorem execPop_shape (a : Byte) (s : State) : ∃ t, execPop a s = .next t ∧ ExecShape s (.pop a) t :=
  withReg_shape rfl fun ra ha => by
    obtain ⟨hsp, e⟩ | ⟨hsp, e⟩ := s.pop_cases
    · exact ⟨_, by rw [e]; rfl, .popExhausts (.inl ⟨a, ra, rfl, ha⟩) hsp⟩
    · exact ⟨_, by rw [e], .pops a ra ha hsp⟩

theorem execCall_shape (a : Byte) (s : State) : ∃ t, execCall a s = .next t ∧ ExecShape s (.call a) t :=
  withReg_shape rfl fun ra ha => by
    by_cases hret : Config.memSize ≤ s.addressAfter (.call a)
    · exact ⟨_, if_pos hret, .returnTooFar a ra ha hret⟩
    · have hlt := Nat.not_le.mp hret
      obtain ⟨hsp, e⟩ | ⟨hsp, e⟩ := s.push_cases (BitVec.ofNat 8 (s.addressAfter (.call a)))
      · exact ⟨_, (if_neg hret).trans (by rw [e]; rfl), .pushExhausts a ra (.inr ⟨rfl, hlt⟩) ha hsp⟩
      · refine ⟨_, (if_neg hret).trans (by rw [e]), ?_⟩
        rw [State.finish_sets_pc _ _ (setsPc_opcode _)]
        exact .calls a ra ha hlt hsp

theorem execRet_shape (s : State) : ∃ t, execRet s = .next t ∧ ExecShape s .ret t := by
  unfold execRet
  obtain ⟨hsp, e⟩ | ⟨hsp, e⟩ := s.pop_cases
  · exact ⟨_, by rw [e]; rfl, .popExhausts (.inr rfl) hsp⟩
  · refine ⟨_, by rw [e], ?_⟩
    rw [State.finish_sets_pc _ _ (setsPc_opcode _)]
    exact .returns hsp

theorem execCmp_shape (a b : Byte) (s : State) : ∃ t, execCmp a b s = .next t ∧ ExecShape s (.cmp a b) t := by
  unfold execCmp
  obtain ⟨ra, rb, ha, hb, e⟩ | ⟨ha, e⟩ | ⟨ha, hb, e⟩ := withTwoRegs_cases a b s
    fun ra rb => .next ((s.setFl (compareFlags (s.reg ra) (s.reg rb))).finish (.cmp a b))
  · exact ⟨_, e, .compares a b ra rb ha hb⟩
  · exact ⟨_, e, .invalid a (by simp [Instr.regOperands, ha])⟩
  · exact ⟨_, e, .invalid b (by simp [Instr.regOperands, hb, ha])⟩

/-- Every instruction answers a next state, and one of the shapes above. -/
theorem exec_shape (i : Instr) (s : State) : ∃ t, exec i s = .next t ∧ ExecShape s i t := by
  cases i with
  | hlt => exact ⟨_, rfl, .halts⟩
  | ret => exact execRet_shape s
  | push a => exact execPush_shape a s
  | pop a => exact execPop_shape a s
  | prn a => exact printReg_shape .dec s (.inl ⟨rfl, rfl⟩)
  | pra a => exact printReg_shape .chr s (.inr (.inl ⟨rfl, rfl⟩))
  | prast a => exact printReg_shape .stars s (.inr (.inr ⟨rfl, rfl⟩))
  | call a => exact execCall_shape a s
  | jmp a => exact jumpIf_shape true s (.inl ⟨rfl, rfl⟩)
  | jeq a => exact jumpIf_shape _ s (.inr (.inl rfl))
  | jne a => exact jumpIf_shape _ s (.inr (.inr rfl))
  | not a => exact withReg_writes rfl rfl (setsPc_opcode _) (by simp)
  | ldi a imm => exact withReg_writes rfl rfl (setsPc_opcode _) (by simp)
  | addi a imm => exact withReg_writes rfl rfl (setsPc_opcode _) (by simp)
  | div a b => exact twoRegDivide_shape _ s (.inl rfl)
  | mod a b => exact twoRegDivide_shape _ s (.inr rfl)
  | cmp a b => exact execCmp_shape a b s
  | add a b => exact twoRegAlu_shape (i := .add a b) _ s rfl rfl (setsPc_opcode _) (by simp)
  | sub a b => exact twoRegAlu_shape (i := .sub a b) _ s rfl rfl (setsPc_opcode _) (by simp)
  | mul a b => exact twoRegAlu_shape (i := .mul a b) _ s rfl rfl (setsPc_opcode _) (by simp)
  | and a b => exact twoRegAlu_shape (i := .and a b) _ s rfl rfl (setsPc_opcode _) (by simp)
  | or a b => exact twoRegAlu_shape (i := .or a b) _ s rfl rfl (setsPc_opcode _) (by simp)
  | xor a b => exact twoRegAlu_shape (i := .xor a b) _ s rfl rfl (setsPc_opcode _) (by simp)
  | shl a b => exact twoRegAlu_shape (i := .shl a b) (fun x y => x <<< y.toNat) s rfl rfl (setsPc_opcode _) (by simp)
  | shr a b => exact twoRegAlu_shape (i := .shr a b) (fun x y => x >>> y.toNat) s rfl rfl (setsPc_opcode _) (by simp)

/-- A next state of an instruction has one of the shapes above. -/
theorem ExecShape.of_exec {i : Instr} {s t : State} (h : exec i s = .next t) : ExecShape s i t := by
  obtain ⟨u, hu, hs⟩ := exec_shape i s
  rw [hu] at h
  cases h
  exact hs

end Sys2Proof.Machine
end

