-- ==== Sys2Proof/Laws/PerInstr.lean ====
section
/-! SUPPORT. A fact about the encoding of every instruction, one lemma a constructor. -/

namespace Sys2Proof.Laws.TableRow

/-- The dispatch table gives an instruction's opcode a handler that, given the instruction's operand bytes, makes that
instruction, under every choice of the opcode parameters that meets the constraints (R78, R79). -/
def Statement (i : Instr) : Prop :=
  ∀ p : OpcodeParams, p.ok → ∃ h, lookupHandler p (i.opcode p) = some h ∧ h.takeOperands i.operands = .ok (i, [])

/-- The opcode of the last row is no other row's where the parameters meet the constraints (R78). -/
theorem lookup_addi {p : OpcodeParams} (hp : p.ok) :
    lookupHandler p p.opAddi = some (.twoOperands .addi) := by
  obtain ⟨-, -, -, -, ha, -, hne⟩ := hp
  simp [Config.fixedOpcodes] at ha
  simp [lookupHandler, dispatchTable, findHandler, ha, hne]

/-- The opcode of the PRAST row is no other row's where the parameters meet the constraints (R78). -/
theorem lookup_prast {p : OpcodeParams} (hp : p.ok) :
    lookupHandler p p.opPrast = some (.oneOperand .prast) := by
  obtain ⟨-, -, -, -, -, hq, -⟩ := hp
  simp [Config.fixedOpcodes] at hq
  simp [lookupHandler, dispatchTable, findHandler, hq]

/-- A fixed opcode finds the row it finds in the table without the parameters' rows (R78). -/
theorem lookup_fixed {p : OpcodeParams} (hp : p.ok) {op : Byte} (hop : op ∈ Config.fixedOpcodes) :
    lookupHandler p op = lookupHandler Config.params op := by
  obtain ⟨-, -, -, -, ha, hq, -⟩ := hp
  have ha' : op ≠ p.opAddi := fun e => ha (e ▸ hop)
  have hq' : op ≠ p.opPrast := fun e => hq (e ▸ hop)
  have haf : op ≠ Config.params.opAddi := fun e => by subst e; revert hop; decide
  have hqf : op ≠ Config.params.opPrast := fun e => by subst e; revert hop; decide
  simp only [lookupHandler, dispatchTable, findHandler, ha', hq', haf, hqf, if_false]

theorem hlt : Statement .hlt := fun _ hp => ⟨_, lookup_fixed hp (by simp [Instr.opcode, Config.fixedOpcodes]), rfl⟩
theorem ret : Statement .ret := fun _ hp => ⟨_, lookup_fixed hp (by simp [Instr.opcode, Config.fixedOpcodes]), rfl⟩
theorem push (a : Byte) : Statement (.push a) := fun _ hp => ⟨_, lookup_fixed hp (by simp [Instr.opcode, Config.fixedOpcodes]), rfl⟩
theorem pop (a : Byte) : Statement (.pop a) := fun _ hp => ⟨_, lookup_fixed hp (by simp [Instr.opcode, Config.fixedOpcodes]), rfl⟩
theorem prn (a : Byte) : Statement (.prn a) := fun _ hp => ⟨_, lookup_fixed hp (by simp [Instr.opcode, Config.fixedOpcodes]), rfl⟩
theorem pra (a : Byte) : Statement (.pra a) := fun _ hp => ⟨_, lookup_fixed hp (by simp [Instr.opcode, Config.fixedOpcodes]), rfl⟩
theorem prast (a : Byte) : Statement (.prast a) := fun _ hp => ⟨_, lookup_prast hp, rfl⟩
theorem call (a : Byte) : Statement (.call a) := fun _ hp => ⟨_, lookup_fixed hp (by simp [Instr.opcode, Config.fixedOpcodes]), rfl⟩
theorem jmp (a : Byte) : Statement (.jmp a) := fun _ hp => ⟨_, lookup_fixed hp (by simp [Instr.opcode, Config.fixedOpcodes]), rfl⟩
theorem jeq (a : Byte) : Statement (.jeq a) := fun _ hp => ⟨_, lookup_fixed hp (by simp [Instr.opcode, Config.fixedOpcodes]), rfl⟩
theorem jne (a : Byte) : Statement (.jne a) := fun _ hp => ⟨_, lookup_fixed hp (by simp [Instr.opcode, Config.fixedOpcodes]), rfl⟩
theorem not (a : Byte) : Statement (.not a) := fun _ hp => ⟨_, lookup_fixed hp (by simp [Instr.opcode, Config.fixedOpcodes]), rfl⟩
theorem ldi (a imm : Byte) : Statement (.ldi a imm) := fun _ hp => ⟨_, lookup_fixed hp (by simp [Instr.opcode, Config.fixedOpcodes]), rfl⟩
theorem add (a b : Byte) : Statement (.add a b) := fun _ hp => ⟨_, lookup_fixed hp (by simp [Instr.opcode, Config.fixedOpcodes]), rfl⟩
theorem sub (a b : Byte) : Statement (.sub a b) := fun _ hp => ⟨_, lookup_fixed hp (by simp [Instr.opcode, Config.fixedOpcodes]), rfl⟩
theorem mul (a b : Byte) : Statement (.mul a b) := fun _ hp => ⟨_, lookup_fixed hp (by simp [Instr.opcode, Config.fixedOpcodes]), rfl⟩
theorem div (a b : Byte) : Statement (.div a b) := fun _ hp => ⟨_, lookup_fixed hp (by simp [Instr.opcode, Config.fixedOpcodes]), rfl⟩
theorem mod (a b : Byte) : Statement (.mod a b) := fun _ hp => ⟨_, lookup_fixed hp (by simp [Instr.opcode, Config.fixedOpcodes]), rfl⟩
theorem cmp (a b : Byte) : Statement (.cmp a b) := fun _ hp => ⟨_, lookup_fixed hp (by simp [Instr.opcode, Config.fixedOpcodes]), rfl⟩
theorem and (a b : Byte) : Statement (.and a b) := fun _ hp => ⟨_, lookup_fixed hp (by simp [Instr.opcode, Config.fixedOpcodes]), rfl⟩
theorem or (a b : Byte) : Statement (.or a b) := fun _ hp => ⟨_, lookup_fixed hp (by simp [Instr.opcode, Config.fixedOpcodes]), rfl⟩
theorem xor (a b : Byte) : Statement (.xor a b) := fun _ hp => ⟨_, lookup_fixed hp (by simp [Instr.opcode, Config.fixedOpcodes]), rfl⟩
theorem shl (a b : Byte) : Statement (.shl a b) := fun _ hp => ⟨_, lookup_fixed hp (by simp [Instr.opcode, Config.fixedOpcodes]), rfl⟩
theorem shr (a b : Byte) : Statement (.shr a b) := fun _ hp => ⟨_, lookup_fixed hp (by simp [Instr.opcode, Config.fixedOpcodes]), rfl⟩
theorem addi (a imm : Byte) : Statement (.addi a imm) := fun _ hp => ⟨_, lookup_addi hp, rfl⟩

end Sys2Proof.Laws.TableRow
end

