-- ==== Sys2Proof/Tests/Slice0.lean ====
section
/-! SUPPORT. The model's own tests. Expected values come from the spec: the encodings of spec/30_encoding.md R79 and the
vectors of spec/95_test_vectors.md. The last part shows, for each statement with hypotheses, states and operands that meet
them. -/

namespace Sys2Proof.Tests

open Sys2Proof Sys2Proof.Machine

/-! ### Helpers -/

/-- The state an outcome goes on with. -/
def nextOf : Result → Option State
  | .next t => some t
  | .fault _ => none
  | .refused _ => none

/-- The reset state with bytes in memory from an address on, and PC there. -/
def codeAt (pc : Nat) (bytes : List Byte) : State :=
  { State.reset with pc := BitVec.ofNat 9 pc, mem := Memory.place [] pc bytes }

/-- The reset state with R0 and R1 set. -/
def regs01 (x y : Byte) : State := (State.reset.setReg .r0 x).setReg .r1 y

/-- A part of the state after one instruction. -/
def afterExec {α : Type} (i : Instr) (s : State) (part : State → α) : Option α := (nextOf (exec i s)).map part

/-- A part of the state after one step. -/
def afterStep {α : Type} (s : State) (part : State → α) : Option α := (nextOf (step s)).map part

/-- R0, FL and PC. -/
def r0FlPc (s : State) : Byte × Byte × Word9 := (s.reg .r0, s.fl, s.pc)

/-- The fault cause, the fault info, PC and IR of a Faulted state. -/
def faultView (s : State) : RunState × FaultCause × Word9 × Word9 × Byte :=
  (s.run, s.faultCause, s.faultInfo, s.pc, s.ir)

/-- What a byte string decodes to, with nothing left over. -/
def decodesTo (bytes : List Byte) (i : Instr) : Bool := decide (decode Config.params bytes = .ok (i, []))

/-- A byte string that the decoder rejects, and why. -/
def rejectedAs (bytes : List Byte) (e : DecodeError) : Bool := decide (decode Config.params bytes = .error e)

/-- Instructions stand at PC where every byte of the encoding does. -/
theorem instrAtPc_of_bytes {p : OpcodeParams} {i : Instr} {s : State} (h : s.pc.toNat + i.size p ≤ 256)
    (hb : ∀ k, k < (encode p i).length → (encode p i)[k]? = some (Memory.read s.mem (s.pc.toNat + k))) :
    InstrAtPc p i s := by
  refine ⟨h, fun k b hk => ?_⟩
  have hlt : k < (encode p i).length := by
    by_contra hge
    rw [List.getElem?_eq_none (by omega)] at hk
    cases hk
  rw [hb k hlt] at hk
  exact Option.some.inj hk

/-! ### Well-formedness (R76, R77) -/

theorem test_wellFormed_rejects_register_8 : (Instr.push 8).wellFormed = false := by decide
theorem test_wellFormed_rejects_second_operand : (Instr.add 0 9).wellFormed = false := by decide
theorem test_wellFormed_rejects_ldi_register_9 : (Instr.ldi 9 5).wellFormed = false := by decide
theorem test_wellFormed_rejects_register_255 : (Instr.jmp 255).wellFormed = false := by decide
theorem test_wellFormed_leaves_immediates_alone :
    (Instr.ldi 7 255).wellFormed = true ∧ (Instr.addi 0 200).wellFormed = true ∧ Instr.hlt.wellFormed = true := by decide

/-! ### Decoding (R79, words written out from the spec's opcode bits) -/

theorem test_decode_no_operand : decodesTo [0b00000001] .hlt ∧ decodesTo [0b00010001] .ret := by decide

theorem test_decode_one_operand :
    decodesTo [0b01000101, 1] (.push 1) ∧ decodesTo [0b01000110, 2] (.pop 2) ∧ decodesTo [0b01000111, 3] (.prn 3) ∧
    decodesTo [0b01001000, 4] (.pra 4) ∧ decodesTo [0b01001001, 5] (.prast 5) ∧ decodesTo [0b01101001, 6] (.not 6) := by
  decide

theorem test_decode_control_transfers :
    decodesTo [0b01010000, 1] (.call 1) ∧ decodesTo [0b01010100, 2] (.jmp 2) ∧ decodesTo [0b01010101, 3] (.jeq 3) ∧
    decodesTo [0b01010110, 4] (.jne 4) := by decide

theorem test_decode_immediates :
    decodesTo [0b10000010, 0, 8] (.ldi 0 8) ∧ decodesTo [0b10101111, 2, 5] (.addi 2 5) := by decide

theorem test_decode_arithmetic :
    decodesTo [0b10100000, 0, 1] (.add 0 1) ∧ decodesTo [0b10100001, 2, 3] (.sub 2 3) ∧
    decodesTo [0b10100010, 4, 5] (.mul 4 5) ∧ decodesTo [0b10100011, 6, 7] (.div 6 7) ∧
    decodesTo [0b10100100, 1, 0] (.mod 1 0) ∧ decodesTo [0b10100111, 3, 2] (.cmp 3 2) := by decide

theorem test_decode_logic :
    decodesTo [0b10101000, 0, 1] (.and 0 1) ∧ decodesTo [0b10101010, 2, 3] (.or 2 3) ∧
    decodesTo [0b10101011, 4, 5] (.xor 4 5) ∧ decodesTo [0b10101100, 6, 7] (.shl 6 7) ∧
    decodesTo [0b10101101, 1, 0] (.shr 1 0) := by decide

theorem test_decode_rejects_unknown_opcodes :
    rejectedAs [0x00, 0, 0] (.unknownOpcode 0x00) ∧ rejectedAs [0x13, 0, 0] (.unknownOpcode 0x13) ∧
    rejectedAs [0x83, 0, 0] (.unknownOpcode 0x83) ∧ rejectedAs [0xC0, 0, 0] (.unknownOpcode 0xC0) ∧
    rejectedAs [0xFF, 0, 0] (.unknownOpcode 0xFF) := by decide

theorem test_decode_rejects_missing_bytes :
    rejectedAs [] .noOpcode ∧ rejectedAs [0x47] (.missingOperand 1) ∧ rejectedAs [0x82, 0] (.missingOperand 2) := by decide

theorem test_opcode_fields :
    (operandCount 0x82, instrSize 0x82, setsPc 0x82) = (2, 3, false) ∧
    (operandCount 0x55, instrSize 0x55, setsPc 0x55) = (1, 2, true) ∧
    (operandCount 0xFF, instrSize 0xFF, setsPc 0xFF) = (3, 4, true) := by decide

theorem test_decodeTableWord :
    decodeTableWord 24 0x080082 = some (.ldi 0 8) ∧ decodeTableWord 8 0x45 = some (.push 0) ∧
    decodeTableWord 8 0x00 = none := by decide

/-! ### The ALU (section 2.2 of the vectors: R0 = A, R1 = B) -/

theorem test_add_wraps : afterExec (.add 0 1) (regs01 200 100) r0FlPc = some (44, 0, 3) := by decide
theorem test_add_same_register : afterExec (.add 0 0) (regs01 100 0) r0FlPc = some (200, 0, 3) := by decide
theorem test_sub_borrows : afterExec (.sub 0 1) (regs01 5 7) r0FlPc = some (254, 0, 3) := by decide
theorem test_sub_order : afterExec (.sub 0 1) (regs01 7 5) r0FlPc = some (2, 0, 3) := by decide
theorem test_mul_low_byte : afterExec (.mul 0 1) (regs01 200 2) r0FlPc = some (144, 0, 3) := by decide
theorem test_mul_255_255 : afterExec (.mul 0 1) (regs01 255 255) r0FlPc = some (1, 0, 3) := by decide
theorem test_div_truncates : afterExec (.div 0 1) (regs01 7 2) r0FlPc = some (3, 0, 3) := by decide
theorem test_div_by_zero : afterExec (.div 0 1) (regs01 5 0) (fun t => (t.reg .r0, t.run, t.faultCause.code, t.pc)) =
    some (5, .faulted, 2, 0) := by decide
theorem test_mod_remainder : afterExec (.mod 0 1) (regs01 255 16) r0FlPc = some (15, 0, 3) := by decide
theorem test_mod_by_zero : afterExec (.mod 0 1) (regs01 5 0) (fun t => (t.reg .r0, t.run, t.faultCause.code, t.pc)) =
    some (5, .faulted, 2, 0) := by decide
theorem test_and : afterExec (.and 0 1) (regs01 0xF0 0x3C) r0FlPc = some (0x30, 0, 3) := by decide
theorem test_or : afterExec (.or 0 1) (regs01 0xF0 0x0F) r0FlPc = some (0xFF, 0, 3) := by decide
theorem test_xor : afterExec (.xor 0 1) (regs01 0xFF 0x0F) r0FlPc = some (0xF0, 0, 3) := by decide
theorem test_not : afterExec (.not 0) (regs01 0xA5 0) r0FlPc = some (0x5A, 0, 2) := by decide
theorem test_shl_by_width : afterExec (.shl 0 1) (regs01 1 8) r0FlPc = some (0, 0, 3) := by decide
theorem test_shl_loses_bit_7 : afterExec (.shl 0 1) (regs01 0x81 1) r0FlPc = some (0x02, 0, 3) := by decide
theorem test_shr_by_width : afterExec (.shr 0 1) (regs01 0xFF 8) r0FlPc = some (0, 0, 3) := by decide
theorem test_shr_shifts_zeros_in : afterExec (.shr 0 1) (regs01 0x81 1) r0FlPc = some (0x40, 0, 3) := by decide
theorem test_addi_wraps : afterExec (.addi 0 10) (regs01 250 0) r0FlPc = some (4, 0, 3) := by decide
theorem test_addi_255 : afterExec (.addi 0 255) (regs01 0 0) r0FlPc = some (255, 0, 3) := by decide

/-! ### CMP (section 2.3) -/

theorem test_cmp_unsigned : afterExec (.cmp 0 1) (regs01 0 255) r0FlPc = some (0, 0x04, 3) := by decide
theorem test_cmp_replaces_fl : afterExec (.cmp 0 1) ((regs01 5 3).setFl 0x01) r0FlPc = some (5, 0x02, 3) := by decide

/-! ### Load and output (section 2.4) -/

theorem test_ldi_writes_sp : afterExec (.ldi 7 0x80) State.reset (fun t => (t.sp, t.pc)) = some (0x80, 3) := by decide
theorem test_ldi_full_range : afterExec (.ldi 3 0xFF) State.reset (fun t => t.reg .r3) = some 0xFF := by decide
theorem test_prn : afterExec (.prn 0) (regs01 255 0) (fun t => (t.out, t.pc)) = some ([⟨.dec, 255⟩], 2) := by decide
theorem test_pra : afterExec (.pra 1) (regs01 0 65) (fun t => (t.out, t.pc)) = some ([⟨.chr, 65⟩], 2) := by decide
theorem test_prast : afterExec (.prast 1) (regs01 0 4) (fun t => (t.out, t.pc)) = some ([⟨.stars, 4⟩], 2) := by decide

/-! ### The stack (section 2.5) -/

theorem test_push_sp : afterExec (.push 7) State.reset (fun t => (t.sp, Memory.read t.mem 0xF3, t.pc)) =
    some (0xF3, 0xF4, 2) := by decide
theorem test_push_at_sp_0 : afterExec (.push 0) (State.reset.setSp 0) (fun t => (t.sp, t.mem, t.faultCause.code, t.pc)) =
    some (0, [], 3, 0) := by decide
theorem test_pop_sp : afterExec (.pop 7) ((State.reset.setSp 0xF3).memWrite 0xF3 0x10) (fun t => (t.sp, t.pc)) =
    some (0x10, 2) := by decide
theorem test_pop_at_sp_255 : afterExec (.pop 0) (State.reset.setSp 0xFF) (fun t => (t.sp, t.faultCause.code, t.pc)) =
    some (0xFF, 3, 0) := by decide
theorem test_call_sp : afterExec (.call 7) (State.reset.setPc 6) (fun t => (t.sp, Memory.read t.mem 0xF3, t.pc)) =
    some (0xF3, 8, 0xF4) := by decide
theorem test_call_return_address_256 : afterExec (.call 1) (State.reset.setPc 254) (fun t => (t.sp, faultView t)) =
    some (0xF4, .faulted, .outOfBounds, 256, 254, 0) := by decide
theorem test_ret : afterExec .ret ((State.reset.setSp 0xF3).memWrite 0xF3 8) (fun t => (t.sp, t.pc)) =
    some (0xF4, 8) := by decide
theorem test_ret_at_sp_255 : afterExec .ret (State.reset.setSp 0xFF) (fun t => (t.sp, t.faultCause.code)) =
    some (0xFF, 3) := by decide

/-! ### Jumps (section 2.6) -/

theorem test_jmp : afterExec (.jmp 2) (State.reset.setReg .r2 0x40) State.pc = some 0x40 := by decide
theorem test_jeq_taken : afterExec (.jeq 1) (((regs01 0 12).setFl 0x01).setPc 20) State.pc = some 12 := by decide
theorem test_jeq_not_taken : afterExec (.jeq 1) (((regs01 0 12).setFl 0x04).setPc 20) State.pc = some 22 := by decide
theorem test_jne_taken_after_reset : afterExec (.jne 1) ((regs01 0 12).setPc 20) State.pc = some 12 := by decide
theorem test_jne_not_taken : afterExec (.jne 1) (((regs01 0 12).setFl 0x01).setPc 254) State.pc = some 256 := by decide

/-! ### The dispatcher and the faults (section 2.7) -/

theorem test_hlt_at_255 : afterStep (codeAt 255 [0x01]) (fun t => (t.run, t.pc)) = some (.halted, 256) := by decide
theorem test_unknown_opcode : afterStep State.reset faultView = some (.faulted, .unknownOpcode, 0, 0, 0) := by decide
theorem test_invalid_register : afterStep (codeAt 0 [0x47, 8]) (fun t => (faultView t, t.out)) =
    some ((.faulted, .invalidRegister, 8, 0, 0x47), []) := by decide
theorem test_invalid_second_register : afterStep (codeAt 0 [0xA0, 0, 9]) faultView =
    some (.faulted, .invalidRegister, 9, 0, 0xA0) := by decide
theorem test_operand_past_memory : afterStep (codeAt 254 [0x82, 0]) faultView =
    some (.faulted, .outOfBounds, 256, 254, 0x82) := by decide
theorem test_fetch_past_memory : afterStep (State.reset.setPc 256) faultView =
    some (.faulted, .outOfBounds, 256, 256, 0) := by decide
theorem test_stopped_core_stays : nextOf (step State.reset.halt) = some State.reset.halt := by decide
theorem test_withFetchWord : afterStep (State.reset.withFetchWord 24 0x080082) (fun t => (t.reg .r0, t.pc, t.ir)) =
    some (8, 3, 0x82) := by decide
theorem test_w1_loads : (boot [0x82, 0x00, 0x08, 0x47, 0x00, 0x01]).map (fun s => (s.mem, s.pc)) =
    some ([(0, 0x82), (2, 0x08), (3, 0x47), (5, 0x01)], 0) := by decide
theorem test_status_after_end : afterStep (codeAt 255 [0x01]) (fun t => t.status.afterEnd.map fun v => (v.pc, v.ir)) =
    some (some (256, 0x01)) := by decide
theorem test_status_while_running : State.reset.status.afterEnd = none := by decide
theorem test_render_character : OutputEvent.render ⟨.chr, 65⟩ = "A" := rfl

/-! ### Witnesses: states and operands that meet the hypotheses of the statements -/

/-- The states the witnesses start from. -/
def allOne : State := { State.reset with fl := 0x01, out := [⟨.chr, 65⟩], mem := [(0, 0x01), (0xF4, 0x2A)] }

theorem witness_DecodeOfEncodeIsIdentity : Config.params.ok ∧ OpcodeParams.ok ⟨0x80, 0x40⟩ := by decide
theorem witness_DecodedBytesAreTheEncoding :
    decode Config.params [0xA0, 7, 255, 0x01] = .ok (.add 7 255, [0x01]) := by decide
theorem witness_SizeComesFromOpcodeBits :
    Config.params.ok ∧ (0xC0 : Byte).toNat / 64 = 3 ∧ (0xFF : Byte).toNat / 64 = 3 := by decide
theorem witness_SetsPcMarksControlTransfers :
    Config.params.ok ∧ setsPc (Instr.opcode Config.params (.jmp 0)) = true ∧
    setsPc (Instr.opcode Config.params .ret) = true := by decide
theorem witness_StepRunsTheDecodedInstruction :
    (codeAt 253 [0x82, 7, 255]).run = .running ∧ InstrAtPc Config.params (.ldi 7 255) (codeAt 253 [0x82, 7, 255]) :=
  ⟨rfl, instrAtPc_of_bytes (by decide) (by decide)⟩
theorem witness_StepRunsUnderEveryParameterChoice :
    OpcodeParams.ok ⟨0x80, 0x40⟩ ∧ (codeAt 254 [0x40, 1]).run = .running ∧
    InstrAtPc ⟨0x80, 0x40⟩ (.prast 1) (codeAt 254 [0x40, 1]) :=
  ⟨by decide, rfl, instrAtPc_of_bytes (by decide) (by decide)⟩
theorem witness_FetchLoadsTheInstructionRegister :
    State.reset.run = .running ∧ 256 ≤ (State.reset.setPc 256).pc.toNat ∧ 256 ≤ (State.reset.setPc 511).pc.toNat ∧
    (State.reset.setPc 255).pc.toNat < 256 := by decide
theorem witness_UnknownOpcodeFaults :
    (codeAt 255 [0x13]).run = .running ∧ (codeAt 255 [0x13]).pc.toNat < 256 ∧
    (Memory.read (codeAt 255 [0x13]).mem (codeAt 255 [0x13]).pc.toNat).toNat ∉ legalOpcodes := by decide
theorem witness_OperandPastMemoryFaults :
    (∀ s ∈ [codeAt 255 [0x47], codeAt 254 [0x82, 0], codeAt 255 [0x82]], s.run = .running ∧ s.pc.toNat < 256 ∧
      (Memory.read s.mem s.pc.toNat).toNat ∈ legalOpcodes ∧
      256 < s.pc.toNat + ((Memory.read s.mem s.pc.toNat).toNat / 64 + 1)) := by decide
theorem witness_InvalidOperandRaisesInvalidRegister :
    (Instr.ldi 8 0).regOperands.find? (fun b => decide (8 ≤ b.toNat)) = some 8 ∧
    (Instr.add 255 9).regOperands.find? (fun b => decide (8 ≤ b.toNat)) = some 255 ∧
    (Instr.add 7 9).regOperands.find? (fun b => decide (8 ≤ b.toNat)) = some 9 := by decide
theorem witness_StepRaisesTheFirstFault :
    State.reset.run = .running ∧ firstFault State.reset = some (.unknownOpcode, 0) ∧
    firstFault (State.reset.setPc 256) = some (.outOfBounds, 256) ∧
    firstFault (codeAt 254 [0x82, 9]) = some (.outOfBounds, 256) ∧
    firstFault (codeAt 0 [0xA3, 9, 8]) = some (.invalidRegister, 9) ∧
    firstFault (codeAt 0 [0xA3, 0, 1]) = some (.arithmeticFault, 0) ∧
    firstFault ((codeAt 254 [0x50, 1]).setSp 0) = some (.outOfBounds, 256) ∧
    firstFault ((codeAt 0 [0x50, 1]).setSp 0) = some (.stackExhausted, 0) ∧
    firstFault ((codeAt 0 [0x11]).setSp 255) = some (.stackExhausted, 0) ∧
    firstFault (codeAt 255 [0x01]) = none := by decide
theorem witness_FaultingInstructionChangesNothingElse :
    ∃ t, State.reset.run ≠ .faulted ∧ exec (.div 0 0) State.reset = .next t ∧ t.run = .faulted :=
  ⟨_, by decide, rfl, by decide⟩
theorem witness_StoppedStatesAreAbsorbing :
    (State.reset.halt.run ≠ .running ∧ Reachable State.reset.halt State.reset.halt) ∧
    (State.reset.raise .unknownOpcode 0).run ≠ .running := ⟨⟨by decide, .here⟩, by decide⟩
theorem witness_OnlyHaltEntersHalted :
    ∃ t, (codeAt 255 [0x01]).run = .running ∧ step (codeAt 255 [0x01]) = .next t ∧ t.run = .halted :=
  ⟨_, by decide, rfl, by decide⟩
theorem witness_ProgramCounterAfterInstruction_faulting :
    ∃ t, State.reset.run ≠ .faulted ∧ exec (.push 8) State.reset = .next t ∧ t.run = .faulted :=
  ⟨_, by decide, rfl, by decide⟩
theorem witness_ProgramCounterAfterInstruction_advancing :
    ∃ t, State.reset.run ≠ .faulted ∧ exec (.ldi 7 1) State.reset = .next t ∧ t.run ≠ .faulted ∧
      setsPc (Instr.opcode Config.params (.ldi 7 1)) = false := ⟨_, by decide, rfl, by decide, by decide⟩
theorem witness_ProgramCounterAfterInstruction_setting :
    ∃ t, State.reset.run ≠ .faulted ∧ exec .ret State.reset = .next t ∧ t.run ≠ .faulted ∧
      setsPc (Instr.opcode Config.params .ret) = true := ⟨_, by decide, rfl, by decide, by decide⟩

theorem witness_AddSubMulReduceModulo256 : (0 : Byte).toNat = Reg.r0.index ∧ (7 : Byte).toNat = Reg.r7.index := by decide
theorem witness_DivModAndDivisionByZero :
    (0 : Byte).toNat = Reg.r0.index ∧ (7 : Byte).toNat = Reg.r7.index ∧
    (State.reset.reg .r7).toNat ≠ 0 ∧ ((regs01 1 1).reg .r1).toNat ≠ 0 ∧ (State.reset.reg .r0).toNat = 0 := by decide
theorem witness_LogicWorksBitByBit : (6 : Byte).toNat = Reg.r6.index ∧ (5 : Byte).toNat = Reg.r5.index := by decide
theorem witness_ShiftsUseTheWholeAmount : (4 : Byte).toNat = Reg.r4.index ∧ (3 : Byte).toNat = Reg.r3.index := by decide
theorem witness_AddImmediateReducesModulo256 : (2 : Byte).toNat = Reg.r2.index := by decide
theorem witness_CompareSetsOneFlag :
    (0 : Byte).toNat = Reg.r0.index ∧ (1 : Byte).toNat = Reg.r1.index ∧
    ((regs01 4 4).reg .r0).toNat = ((regs01 4 4).reg .r1).toNat ∧
    ((regs01 255 0).reg .r1).toNat < ((regs01 255 0).reg .r0).toNat ∧
    ((regs01 0 255).reg .r0).toNat < ((regs01 0 255).reg .r1).toNat := by decide
theorem witness_OnlyCompareWritesFlags_exec :
    ∃ t, exec (.cmp 0 0) State.reset = .next t ∧ t.fl ≠ State.reset.fl := ⟨_, rfl, by decide⟩
theorem witness_OnlyCompareWritesFlags_step :
    ∃ t, step (codeAt 0 [0xA7, 0, 0]) = .next t ∧ t.fl ≠ (codeAt 0 [0xA7, 0, 0]).fl := ⟨_, rfl, by decide⟩
theorem witness_ArithmeticFaultOnlyByDivisionByZero :
    ∃ t, State.reset.faultCause = .noFault ∧ exec (.mod 7 0) State.reset = .next t ∧ t.faultCause = .arithmeticFault :=
  ⟨_, by decide, rfl, by decide⟩
theorem witness_LoadImmediateWritesTheRegister : (7 : Byte).toNat = Reg.r7.index := by decide
theorem witness_PrintNumberSendsOneEvent : (1 : Byte).toNat = Reg.r1.index := by decide
theorem witness_PrintCharAndStarsSendOneEvent : (7 : Byte).toNat = Reg.r7.index := by decide
theorem witness_OutputGrowsOnlyByPrints :
    ∃ t, exec (.prn 7) allOne = .next t ∧ t.out = allOne.out ++ [⟨.dec, allOne.reg .r7⟩] := ⟨_, rfl, by decide⟩
theorem witness_PushStoresBelowTheStackPointer :
    (7 : Byte).toNat = Reg.r7.index ∧ ((State.reset.setSp 1).reg .r7).toNat ≠ 0 ∧
    ((State.reset.setSp 255).reg .r7).toNat ≠ 0 ∧ ((State.reset.setSp 0).reg .r7).toNat = 0 := by decide
theorem witness_PopLoadsFromTheStackPointer :
    (7 : Byte).toNat = Reg.r7.index ∧ Reg.r0 ≠ Reg.r7 ∧ ((State.reset.setSp 254).reg .r7).toNat ≠ 255 ∧
    ((State.reset.setSp 0).reg .r7).toNat ≠ 255 ∧ ((State.reset.setSp 255).reg .r7).toNat = 255 := by decide
theorem witness_CallPushesTheReturnAddress :
    (7 : Byte).toNat = Reg.r7.index ∧ (State.reset.setPc 253).pc.toNat + 2 < 256 ∧ (State.reset.reg .r7).toNat ≠ 0 ∧
    ((State.reset.setSp 0).reg .r7).toNat = 0 ∧
    (256 ≤ (State.reset.setPc 254).pc.toNat + 2 ∧ (State.reset.setPc 254).pc.toNat < 256) ∧
    (256 ≤ (State.reset.setPc 255).pc.toNat + 2 ∧ (State.reset.setPc 255).pc.toNat < 256) := by decide
theorem witness_ReturnPopsTheProgramCounter :
    ((State.reset.setSp 254).reg .r7).toNat ≠ 255 ∧ ((State.reset.setSp 255).reg .r7).toNat = 255 := by decide
theorem witness_PushThenPopMovesTheValue :
    (0 : Byte).toNat = Reg.r0.index ∧ (6 : Byte).toNat = Reg.r6.index ∧ Reg.r0 ≠ Reg.r7 ∧ Reg.r6 ≠ Reg.r7 ∧
    ((State.reset.setSp 1).reg .r7).toNat ≠ 0 := by decide
theorem witness_CallThenReturnComesBack :
    (7 : Byte).toNat = Reg.r7.index ∧ (State.reset.setPc 253).pc.toNat + 2 < 256 ∧ (State.reset.reg .r7).toNat ≠ 0 := by
  decide
theorem witness_OnlyPushAndCallWriteMemory :
    ∃ t, exec .hlt allOne = .next t ∧ (∀ a, Instr.hlt ≠ .push a) ∧ (∀ a, Instr.hlt ≠ .call a) :=
  ⟨_, rfl, fun _ h => (by cases h), fun _ h => (by cases h)⟩
theorem witness_TakenJumpsGoToTheRegister :
    (7 : Byte).toNat = Reg.r7.index ∧ allOne.fl.getLsbD 0 = true ∧ State.reset.fl.getLsbD 0 = false := by decide
theorem witness_NotTakenJumpsFallThrough :
    (3 : Byte).toNat = Reg.r3.index ∧ State.reset.fl.getLsbD 0 = false ∧ allOne.fl.getLsbD 0 = true ∧
    (allOne.setPc 254).pc.toNat = 254 ∧ (allOne.setPc 254).run = .running := by decide
theorem witness_ConditionalJumpSeesTheLastCompare :
    (0 : Byte).toNat = Reg.r0.index ∧ (1 : Byte).toNat = Reg.r1.index ∧ (7 : Byte).toNat = Reg.r7.index := by decide
theorem witness_OnlyTheEqualFlagIsRead_other :
    ∃ t, exec .hlt State.reset = .next t ∧ ∀ a, Instr.hlt ≠ .jeq a ∧ Instr.hlt ≠ .jne a :=
  ⟨_, rfl, fun _ => ⟨fun h => (by cases h), fun h => (by cases h)⟩⟩
theorem witness_OnlyTheEqualFlagIsRead_conditional :
    ∃ t, exec (.jeq 0) State.reset = .next t ∧ (0xFE : Byte).getLsbD 0 = State.reset.fl.getLsbD 0 := ⟨_, rfl, by decide⟩
theorem witness_UnusedRegistersDoNotMatter :
    ∃ t, usesReg (.add 0 1) .r5 = false ∧ exec (.add 0 1) State.reset = .next t := ⟨_, by decide, rfl⟩
theorem witness_MemoryIsDeterminedByItsReads : Memory.wf allOne.mem ∧ Memory.wf ([(255, 0xFF)] : Memory) := by decide
theorem witness_NextFetchSeesThePushedByte :
    let s := (codeAt 0 [0x45, 0]).setSp 3
    s.run = .running ∧ (0 : Byte).toNat = Reg.r0.index ∧ InstrAtPc Config.params (.push 0) s ∧
      (s.reg .r7).toNat = s.pc.toNat + 3 :=
  ⟨rfl, rfl, instrAtPc_of_bytes (by decide) (by decide), by decide⟩
theorem witness_BootLoadsTheImage :
    ([] : List Byte).length ≤ 256 ∧ (List.replicate 256 (1 : Byte)).length ≤ 256 ∧
    256 < (List.replicate 257 (1 : Byte)).length := by
  simp only [List.length_nil, List.length_replicate]; omega
theorem witness_StepKeepsTheInvariant :
    ∃ t, Inv (codeAt 0 [0x82, 0, 8]) ∧ step (codeAt 0 [0x82, 0, 8]) = .next t :=
  ⟨_, ⟨by decide, by decide, by decide, by decide, by decide⟩, rfl⟩
theorem witness_EveryRunMeetsTheInvariant :
    ∃ s t, boot [0x01] = some s ∧ Reachable s t ∧ t.run = .halted :=
  ⟨_, _, rfl, .next .here rfl, by decide⟩
theorem witness_SafeRunsAreTheFaultFreeOnes :
    State.reset.halt.run ≠ .faulted ∧ SafeFrom State.reset.halt := by
  have stays : ∀ t, Reachable State.reset.halt t → t = State.reset.halt := fun t h => by
    induction h with
    | here => rfl
    | next _ hs ih => subst ih; cases hs; rfl
  exact ⟨by decide, fun t h => by rw [stays t h]; decide⟩

theorem witness_EndedStatesAreReadWhole :
    (State.reset.raise .unknownOpcode 0).run ≠ .running ∧ State.reset.halt.run ≠ .running ∧
    State.reset.run = .running ∧ State.reset.halt.status = State.reset.halt.status := by decide

end Sys2Proof.Tests
end

section
/-! The operand count of an opcode, for every admissible choice of the two opcode parameters (spec/30_encoding.md R71,
R72, R78), and the obligation on the instruction size. -/

namespace Sys2Proof

/-- The count that bits 7 and 6 of the opcode hold is the number of operand bytes the encoder writes. For ADDI and PRAST
this is what R78 asks of the parameter. -/
theorem operandCount_opcode {p : OpcodeParams} (hp : p.ok) (i : Instr) :
    operandCount (i.opcode p) = i.operands.length := by
  obtain ⟨hAddi, -, hPrast, -⟩ := hp
  cases i with
  | addi a imm => simp [operandCount, Instr.opcode, Instr.operands, hAddi]
  | prast a => simp [operandCount, Instr.opcode, Instr.operands, hPrast]
  | _ => simp [operandCount, Instr.opcode, Instr.operands]

theorem Instr.operands_length_le_two (i : Instr) : i.operands.length ≤ 2 := by
  cases i <;> simp [Instr.operands]

/-- The opcodes of the dispatch table are the two parameters and the fixed ones (R79). -/
theorem mem_dispatchTable_opcodes {p : OpcodeParams} {op : Byte} (h : op ∈ (dispatchTable p).map Prod.fst) :
    op = p.opAddi ∨ op = p.opPrast ∨ op ∈ Config.fixedOpcodes := by
  simp only [dispatchTable, List.map_cons, List.map_nil, List.mem_cons, List.not_mem_nil] at h
  simp only [Config.fixedOpcodes, List.mem_cons, List.not_mem_nil]
  tauto

theorem operandCount_le_two_of_mem_dispatchTable {p : OpcodeParams} (hp : p.ok) {op : Byte}
    (h : op ∈ (dispatchTable p).map Prod.fst) : operandCount op ≤ 2 := by
  obtain rfl | rfl | hfixed := mem_dispatchTable_opcodes h
  · exact (operandCount_opcode hp (.addi 0 0)).le
  · exact (operandCount_opcode hp (.prast 0)).le.trans (by decide)
  · exact (by decide : ∀ k ∈ Config.fixedOpcodes, operandCount k ≤ 2) op hfixed

/-- An opcode of no row is rejected before any operand byte is looked at (R80, R94). -/
theorem decode_of_not_mem_dispatchTable {p : OpcodeParams} {op : Byte} (h : op ∉ (dispatchTable p).map Prod.fst)
    (rest : List Byte) : decode p (op :: rest) = .error (.unknownOpcode op) := by
  simp only [decode, lookupHandler, findHandler_eq_none_iff.mpr h]

/-- Settles O3: by `operandCount_opcode` the two opcode bits count the operand bytes, and no opcode of the dispatch
table has a count of 3. -/
theorem sizeComesFromOpcodeBits : Obligations.SizeComesFromOpcodeBits := by
  intro p hp
  refine ⟨fun op => ?size, fun i => ?defined, fun op rest hthree => ?undefined⟩
  case size => rw [instrSize, operandCount_eq]
  case defined =>
    rw [← operandCount_eq, operandCount_opcode hp i]
    exact ⟨i.operands_length_le_two, List.length_cons⟩
  case undefined =>
    refine decode_of_not_mem_dispatchTable (fun hmem => ?_) rest
    have hle := operandCount_le_two_of_mem_dispatchTable hp hmem
    rw [operandCount_eq] at hle
    omega

end Sys2Proof
end

section
/-! What an instruction and a step leave in FL (spec/41_alu.md R123, R124), and the obligation on the flag writer. -/

namespace Sys2Proof.Machine

/-- Each shape an instruction's next state can have keeps FL, except the one of a CMP that runs. -/
theorem ExecShape.fl_eq_or_eq_cmp {s t : State} {i : Instr} (h : ExecShape s i t) :
    t.fl = s.fl ∨ ∃ a b, i = .cmp a b := by
  cases h with
  | compares a b => exact .inr ⟨a, b, rfl⟩
  | _ => left; simp

/-- The dispatcher's own faults, OutOfBounds and UnknownOpcode, keep FL (R92 to R95). -/
@[simp] theorem State.raiseDecodeError_fl (s : State) (e : DecodeError) : (s.raiseDecodeError e).fl = s.fl := by
  cases e <;> simp [State.raiseDecodeError]

/-- An instruction that changes FL is a CMP (R124). -/
theorem eq_cmp_of_exec_fl_ne {i : Instr} {s t : State} (h : exec i s = .next t) (hfl : t.fl ≠ s.fl) :
    ∃ a b, i = .cmp a b :=
  (ExecShape.of_exec h).fl_eq_or_eq_cmp.resolve_left hfl

/-- A step that changes FL runs a CMP, under any choice of the two opcode parameters: a stopped core stays as it is, the
dispatcher's faults keep FL, and fetching the opcode keeps it before the instruction runs. -/
theorem decode_eq_cmp_of_stepWith_fl_ne {p : OpcodeParams} {s t : State} (h : stepWith p s = .next t)
    (hfl : t.fl ≠ s.fl) : s.run = .running ∧ ∃ a b rest, decode p s.fetchWindow = .ok (.cmp a b, rest) := by
  obtain ⟨-, hstay⟩ | ⟨hrun, i, rest, hdecode, hexec⟩ | ⟨-, e, -, hfault⟩ := stepWith_cases p s
  · cases hstay.symm.trans h
    exact absurd rfl hfl
  · obtain ⟨a, b, rfl⟩ := eq_cmp_of_exec_fl_ne (hexec.symm.trans h) (by simpa using hfl)
    exact ⟨hrun, a, b, rest, hdecode⟩
  · cases hfault.symm.trans h
    exact absurd (s.raiseDecodeError_fl e) hfl

end Sys2Proof.Machine

namespace Sys2Proof

/-- Settles O27: every shape of an instruction's next state but CMP's keeps FL, and so does what a step does besides
running its instruction. -/
theorem onlyCompareWritesFlags : Obligations.OnlyCompareWritesFlags :=
  ⟨fun _ _ _ => Machine.eq_cmp_of_exec_fl_ne, fun _ _ => Machine.decode_eq_cmp_of_stepWith_fl_ne⟩

end Sys2Proof
end

section
/-! What a print instruction does with a valid operand (spec/42_load_output.md R141 to R143), and the obligation on
PRN. -/

namespace Sys2Proof.Machine

/-- Past an instruction that leaves PC to the dispatcher, PC has grown by its size, in 9 bits (R98). -/
theorem State.finish_pc_eq_add_size (s : State) (i : Instr) (h : setsPc (i.opcode Config.params) = false) :
    (s.finish i).pc = s.pc + BitVec.ofNat 9 (i.size Config.params) := by
  rw [State.finish_pc_advances s i h, State.addressAfter, BitVec.ofNat_add, BitVec.ofNat_toNat, BitVec.setWidth_eq]

/-- A print whose operand names a register sends one event with its value and leaves the rest to the advance (R41). -/
theorem printReg_of_index {a : Byte} {ra : Reg} (ha : a.toNat = ra.index) (i : Instr) (k : OutputKind) (s : State) :
    printReg i k a s = .next ((s.output k (s.reg ra)).finish i) :=
  withReg_of_index ha s _

/-- An instruction that is a print of a valid operand changes the output stream and PC only, and PC by its size. -/
theorem prints_of_exec_eq_printReg {i : Instr} {k : OutputKind} {a : Byte} {ra : Reg} {s : State}
    (hexec : exec i s = printReg i k a s) (hpc : AdvancesPc i) (ha : a.toNat = ra.index) :
    Prints i ⟨k, s.reg ra⟩ (s.pc + BitVec.ofNat 9 (i.size Config.params)) s :=
  ⟨(s.output k (s.reg ra)).finish i, hexec.trans (printReg_of_index ha i k s), by simp,
    State.finish_pc_eq_add_size _ i hpc, fun q => by simp, fun x => by simp, by simp, by simp, by simp, by simp, by simp⟩

/-- The host renders a Dec event as the decimal digits of its value and a line break (R41). -/
theorem OutputEvent.render_dec (v : Byte) : OutputEvent.render ⟨.dec, v⟩ = toString v.toNat ++ "\n" := rfl

end Sys2Proof.Machine

namespace Sys2Proof

open Sys2Proof.Machine

/-- Settles O30: PRN is the print of kind Dec whose size is 2, and the dispatcher advances PC after it. -/
theorem printNumberSendsOneEvent : Obligations.PrintNumberSendsOneEvent := by
  intro s a ra ha
  have hsize : (Instr.prn a).size Config.params = 2 := Instr.size_eq (.prn a)
  have hprints := prints_of_exec_eq_printReg (s := s) rfl (setsPc_opcode (.prn a)) ha
  rw [hsize] at hprints
  exact ⟨rfl, hprints, OutputEvent.render_dec (s.reg ra)⟩

end Sys2Proof
end

section
/-! The decoder and the encoder against each other, row by row of the dispatch table (spec/30_encoding.md), and the
obligations on the encoding. -/

namespace Sys2Proof

/-- The dispatch table gives every instruction's opcode a handler that makes the instruction again from its operand
bytes (R79): the lemmas of `Laws.TableRow`, for an arbitrary instruction. -/
theorem tableRow_statement (i : Instr) : Laws.TableRow.Statement i := by
  cases i with
  | hlt => exact Laws.TableRow.hlt
  | ret => exact Laws.TableRow.ret
  | push a => exact Laws.TableRow.push a
  | pop a => exact Laws.TableRow.pop a
  | prn a => exact Laws.TableRow.prn a
  | pra a => exact Laws.TableRow.pra a
  | prast a => exact Laws.TableRow.prast a
  | call a => exact Laws.TableRow.call a
  | jmp a => exact Laws.TableRow.jmp a
  | jeq a => exact Laws.TableRow.jeq a
  | jne a => exact Laws.TableRow.jne a
  | not a => exact Laws.TableRow.not a
  | ldi a imm => exact Laws.TableRow.ldi a imm
  | add a b => exact Laws.TableRow.add a b
  | sub a b => exact Laws.TableRow.sub a b
  | mul a b => exact Laws.TableRow.mul a b
  | div a b => exact Laws.TableRow.div a b
  | mod a b => exact Laws.TableRow.mod a b
  | cmp a b => exact Laws.TableRow.cmp a b
  | and a b => exact Laws.TableRow.and a b
  | or a b => exact Laws.TableRow.or a b
  | xor a b => exact Laws.TableRow.xor a b
  | shl a b => exact Laws.TableRow.shl a b
  | shr a b => exact Laws.TableRow.shr a b
  | addi a imm => exact Laws.TableRow.addi a imm

theorem decode_encode_append {p : OpcodeParams} (hp : p.ok) (i : Instr) (rest : List Byte) :
    decode p (encode p i ++ rest) = .ok (i, rest) := by
  obtain ⟨h, hlookup, htake⟩ := tableRow_statement i p hp
  simp only [encode, List.cons_append, decode, hlookup, Handler.takeOperands_append htake]

/-- Settles O1: the lookup finds the instruction's own row, and its handler takes the operand bytes the encoder wrote. -/
theorem decodeOfEncodeIsIdentity : Obligations.DecodeOfEncodeIsIdentity := fun _ hp => decode_encode_append hp

/-! ### From the decoder back to the encoder -/

/-- Every instruction a handler makes has the opcode of the handler's row, and as operand bytes the ones it was made
from. -/
def Handler.Makes (p : OpcodeParams) (op : Byte) : Handler → Prop
  | .noOperand i => encode p i = [op]
  | .oneOperand mk => ∀ a, encode p (mk a) = [op, a]
  | .twoOperands mk => ∀ a b, encode p (mk a b) = [op, a, b]

/-- Every row of the dispatch table makes instructions of its own opcode (R79). -/
theorem makes_of_mem_dispatchTable {p : OpcodeParams} {op : Byte} {h : Handler} (hmem : (op, h) ∈ dispatchTable p) :
    h.Makes p op :=
  have hrows : ∀ row ∈ dispatchTable p, row.2.Makes p row.1 := by
    simp only [dispatchTable, List.forall_mem_cons, Handler.Makes, encode, Instr.opcode, Instr.operands]
    simp
  hrows (op, h) hmem

/-- The bytes a handler takes, behind its opcode, are the encoding of the instruction it makes (R70). -/
theorem Handler.Makes.cons_eq_encode_append {p : OpcodeParams} {op : Byte} {h : Handler} (hmakes : h.Makes p op)
    {bs rest : List Byte} {i : Instr} (htake : h.takeOperands bs = .ok (i, rest)) : op :: bs = encode p i ++ rest := by
  cases h with
  | noOperand j =>
    cases htake
    rw [show encode p i = [op] from hmakes]; rfl
  | oneOperand mk =>
    obtain _ | ⟨a, bs⟩ := bs <;> cases htake
    rw [show encode p (mk a) = [op, a] from hmakes a]; rfl
  | twoOperands mk =>
    obtain _ | ⟨a, _ | ⟨b, bs⟩⟩ := bs <;> cases htake
    rw [show encode p (mk a b) = [op, a, b] from hmakes a b]; rfl

/-- A handler rejects bytes only where there are fewer than it takes, and names the first that is missing (R95). -/
theorem Handler.Makes.takeOperands_error {p : OpcodeParams} (hp : p.ok) {op : Byte} {h : Handler}
    (hmakes : h.Makes p op) {bs : List Byte} {e : DecodeError} (htake : h.takeOperands bs = .error e) :
    bs.length < op.toNat / 64 ∧ op.toNat / 64 ≤ 2 ∧ e = .missingOperand (bs.length + 1) := by
  have hcount (i : Instr) (tail : List Byte) (hi : encode p i = op :: tail) : op.toNat / 64 = tail.length := by
    obtain ⟨rfl, rfl⟩ := List.cons.inj hi
    rw [← operandCount_eq, operandCount_opcode hp]
  cases h with
  | noOperand i => cases htake
  | oneOperand mk =>
    obtain _ | ⟨a, bs⟩ := bs <;> cases htake
    rw [hcount _ _ (hmakes 0)]; decide
  | twoOperands mk =>
    obtain _ | ⟨a, _ | ⟨b, bs⟩⟩ := bs <;> cases htake <;> rw [hcount _ _ (hmakes 0 0)] <;> simp

/-- Everything the decoder can do with an opcode and the bytes that follow it. -/
theorem decode_cons_cases (p : OpcodeParams) (op : Byte) (bs : List Byte) :
    (op ∉ (dispatchTable p).map Prod.fst ∧ decode p (op :: bs) = .error (.unknownOpcode op)) ∨
    ∃ h, (op, h) ∈ dispatchTable p ∧ decode p (op :: bs) = h.takeOperands bs := by
  cases hlookup : lookupHandler p op with
  | none => exact .inl ⟨findHandler_eq_none_iff.mp hlookup, by simp only [decode, hlookup]⟩
  | some h => exact .inr ⟨h, findHandler_mem hlookup, by simp only [decode, hlookup]⟩

theorem eq_encode_append_of_decode {p : OpcodeParams} {bs rest : List Byte} {i : Instr}
    (h : decode p bs = .ok (i, rest)) : bs = encode p i ++ rest := by
  obtain _ | ⟨op, bs⟩ := bs
  · cases h
  · obtain ⟨-, hunknown⟩ | ⟨handler, hmem, htake⟩ := decode_cons_cases p op bs
    · cases hunknown.symm.trans h
    · exact (makes_of_mem_dispatchTable hmem).cons_eq_encode_append (htake.symm.trans h)

/-- Settles O2: the row that answers makes instructions of its own opcode from the bytes it takes. -/
theorem decodedBytesAreTheEncoding : Obligations.DecodedBytesAreTheEncoding := fun _ _ _ _ => eq_encode_append_of_decode

/-! ### Bit 4 of the opcode -/

theorem setsPc_eq_true_iff (op : Byte) : setsPc op = true ↔ op.toNat / 16 % 2 = 1 := by
  simp [setsPc, BitVec.getLsbD, Nat.testBit_eq_decide_div_mod_eq]

/-- R78 asks bit 4 of either parameter to be 0, so the choice of the parameters does not matter to it. -/
theorem setsPc_opcode_of_ok {p : OpcodeParams} (hp : p.ok) (i : Instr) :
    setsPc (i.opcode p) = setsPc (i.opcode Config.params) := by
  obtain ⟨-, hAddi, -, hPrast, -⟩ := hp
  cases i with
  | addi a imm => exact hAddi.trans (setsPc_opcode (.addi a imm)).symm
  | prast a => exact hPrast.trans (setsPc_opcode (.prast a)).symm
  | _ => rfl

/-- The control transfers, as `setsPc_opcode` lists them (R73). -/
theorem setsPc_opcode_eq_true_iff (i : Instr) : setsPc (i.opcode Config.params) = true ↔
    (∃ a, i = .call a) ∨ i = .ret ∨ (∃ a, i = .jmp a) ∨ (∃ a, i = .jeq a) ∨ (∃ a, i = .jne a) := by
  rw [setsPc_opcode]
  cases i <;> simp

/-- Settles O4: R78 fixes bit 4 for the two parameters, and for the fixed opcodes it is set in those of CALL, RET, JMP,
JEQ and JNE. -/
theorem setsPcMarksControlTransfers : Obligations.SetsPcMarksControlTransfers := by
  refine ⟨setsPc_eq_true_iff, fun p hp i => ?_, fun i s hpc => by rw [Machine.State.finish_sets_pc s i hpc]⟩
  rw [setsPc_opcode_of_ok hp, setsPc_opcode_eq_true_iff]

/-! ### The legal opcodes -/

/-- A handler never calls an opcode unknown: the lookup has found it. -/
theorem Handler.takeOperands_ne_unknownOpcode (h : Handler) (bs : List Byte) (op : Byte) :
    h.takeOperands bs ≠ .error (.unknownOpcode op) := by
  cases h <;> rcases bs with _ | ⟨a, _ | ⟨b, bs⟩⟩ <;> simp [Handler.takeOperands]

theorem decode_eq_unknownOpcode_iff (p : OpcodeParams) (op : Byte) (rest : List Byte) :
    decode p (op :: rest) = .error (.unknownOpcode op) ↔ op ∉ (dispatchTable p).map Prod.fst := by
  refine ⟨fun h hmem => ?_, fun h => decode_of_not_mem_dispatchTable h rest⟩
  obtain ⟨hno, -⟩ | ⟨handler, -, htake⟩ := decode_cons_cases p op rest
  · exact hno hmem
  · exact handler.takeOperands_ne_unknownOpcode rest op (htake.symm.trans h)

/-- `legalOpcodes` are the opcodes of the dispatch table with the default parameters (R79). -/
theorem mem_dispatchTable_iff_mem_legalOpcodes (op : Byte) :
    op ∈ (dispatchTable Config.params).map Prod.fst ↔ op.toNat ∈ legalOpcodes := by
  have hlegal : legalOpcodes = ((dispatchTable Config.params).map Prod.fst).map BitVec.toNat := rfl
  rw [hlegal, List.mem_map_of_injective fun _ _ => BitVec.eq_of_toNat_eq]

/-- Settles O5: the decoder calls unknown exactly the opcodes of no row, and the rows' opcodes are `legalOpcodes`. -/
theorem otherOpcodesSelectNothing : Obligations.OtherOpcodesSelectNothing := by
  refine ⟨fun op rest => ?_, by decide, by decide, rfl⟩
  rw [decode_eq_unknownOpcode_iff, mem_dispatchTable_iff_mem_legalOpcodes]

/-- Settles O6: each word is an instruction's encoding, so decoding gives the instruction back. -/
theorem specWordsDecode : Obligations.SpecWordsDecode :=
  have hdecode (i : Instr) : decode Config.params (encode Config.params i) = .ok (i, []) := by
    simpa using decode_encode_append (by decide) i []
  ⟨hdecode (.ldi 0 8), hdecode (.prn 0), hdecode .hlt, hdecode (.add 0 1), hdecode (.not 2), hdecode (.push 3),
    hdecode (.jeq 3)⟩

/-- Settles O7, by computing the bits of the two opcodes. -/
theorem parametersMeetDecoderConstraints : Obligations.ParametersMeetDecoderConstraints := by
  unfold Obligations.ParametersMeetDecoderConstraints
  decide

end Sys2Proof
end

section
/-! The bytes at PC and the instruction they are (spec/40_dispatch.md R92 to R95), and the obligations on the step of a
decoded instruction. -/

namespace Sys2Proof.Machine

/-- The bytes that stand in memory from an address on are the cells there, up to the count and to address 255. -/
theorem Memory.bytesFrom_getElem? (m : Memory) (n a k : Nat) :
    (m.bytesFrom n a)[k]? = if k < n ∧ a + k < 256 then some (m.read (a + k)) else none := by
  induction n generalizing a k with
  | zero => simp [Memory.bytesFrom]
  | succ n ih =>
    unfold Memory.bytesFrom Config.memSize
    cases k with
    | zero => split <;> simp_all
    | succ k =>
      have hshift : a + 1 + k = a + (k + 1) := by omega
      by_cases ha : a < 256
      · simp [ha, ih, hshift]
      · rw [if_neg ha, if_neg (by omega)]; rfl

theorem State.fetchWindow_getElem? (s : State) (k : Nat) : s.fetchWindow[k]? =
    if k < 3 ∧ s.pc.toNat + k < 256 then some (Memory.read s.mem (s.pc.toNat + k)) else none :=
  Memory.bytesFrom_getElem? s.mem 3 s.pc.toNat k

/-- The size that the opcode gives is the number of bytes of the encoding, for every admissible choice of the opcode
parameters (R72, R78). -/
theorem encode_length {p : OpcodeParams} (hp : p.ok) (i : Instr) : (encode p i).length = i.size p := by
  rw [Instr.size, instrSize, operandCount_opcode hp]
  rfl

theorem encode_length_le_three (p : OpcodeParams) (i : Instr) : (encode p i).length ≤ 3 :=
  Nat.succ_le_succ i.operands_length_le_two

/-- An instruction stands at PC exactly where the bytes the decoder is given begin with its encoding. -/
theorem instrAtPc_iff_fetchWindow {p : OpcodeParams} (hp : p.ok) (i : Instr) (s : State) :
    InstrAtPc p i s ↔ ∃ rest, s.fetchWindow = encode p i ++ rest := by
  have hlen := encode_length_le_three p i
  constructor
  · rintro ⟨hsize, hbytes⟩
    rw [← encode_length hp] at hsize
    refine ⟨s.fetchWindow.drop (encode p i).length, List.ext_getElem? fun k => ?_⟩
    by_cases hk : k < (encode p i).length
    · rw [List.getElem?_append_left hk, State.fetchWindow_getElem?, if_pos (by omega),
        hbytes k _ (List.getElem?_eq_getElem hk), List.getElem?_eq_getElem hk]
    · rw [List.getElem?_append_right (by omega), List.getElem?_drop, Nat.add_sub_cancel' (by omega)]
  · rintro ⟨rest, hwindow⟩
    have hcell (k : Nat) (b : Byte) (hk : (encode p i)[k]? = some b) :
        s.pc.toNat + k < 256 ∧ Memory.read s.mem (s.pc.toNat + k) = b := by
      obtain ⟨hlt, -⟩ := List.getElem?_eq_some_iff.mp hk
      have hwin : s.fetchWindow[k]? = some b := by rw [hwindow, List.getElem?_append_left hlt, hk]
      rw [State.fetchWindow_getElem?] at hwin
      split at hwin
      · next hin => exact ⟨hin.2, Option.some.inj hwin⟩
      · cases hwin
    refine ⟨?_, fun k b hk => (hcell k b hk).2⟩
    have hpos : 0 < (encode p i).length := Nat.succ_pos _
    obtain ⟨hlast, -⟩ := hcell ((encode p i).length - 1) _ (List.getElem?_eq_getElem (by omega))
    rw [← encode_length hp]
    omega

/-- The bytes at PC decode to the instruction that stands there. -/
theorem decode_fetchWindow_of_instrAtPc {p : OpcodeParams} (hp : p.ok) {i : Instr} {s : State} (h : InstrAtPc p i s) :
    ∃ rest, decode p s.fetchWindow = .ok (i, rest) := by
  obtain ⟨rest, hwindow⟩ := (instrAtPc_iff_fetchWindow hp i s).mp h
  exact ⟨rest, hwindow ▸ decode_encode_append hp i rest⟩

/-- The instruction the bytes at PC decode to stands there. -/
theorem instrAtPc_of_decode {p : OpcodeParams} (hp : p.ok) {i : Instr} {s : State} {rest : List Byte}
    (h : decode p s.fetchWindow = .ok (i, rest)) : InstrAtPc p i s :=
  (instrAtPc_iff_fetchWindow hp i s).mpr ⟨rest, eq_encode_append_of_decode h⟩

/-- The default opcode parameters are an admissible choice (R78). -/
theorem params_ok : Config.params.ok := parametersMeetDecoderConstraints

/-- The fetch loads the opcode of the instruction that stands at PC (R92). -/
theorem read_pc_of_instrAtPc {p : OpcodeParams} {i : Instr} {s : State} (h : InstrAtPc p i s) :
    Memory.read s.mem s.pc.toNat = i.opcode p :=
  h.2 0 _ rfl

theorem fetchOpcode_of_instrAtPc {p : OpcodeParams} {i : Instr} {s : State} (h : InstrAtPc p i s) :
    s.fetchOpcode = { s with ir := i.opcode p } := by
  rw [State.fetchOpcode, read_pc_of_instrAtPc h]

/-- Everything a step with the default parameters can do: a stopped core stays, and a Running one runs the instruction
that stands at PC or takes the dispatcher's fault. -/
theorem step_cases (s : State) :
    (s.run ≠ .running ∧ step s = .next s) ∨
    (s.run = .running ∧ ∃ i, InstrAtPc Config.params i s ∧ step s = exec i s.fetchOpcode) ∨
    (s.run = .running ∧ ∃ e, decode Config.params s.fetchWindow = .error e ∧ step s = .next (s.raiseDecodeError e)) := by
  obtain hstay | ⟨hrun, i, rest, hdecode, hexec⟩ | hfault := stepWith_cases Config.params s
  · exact .inl hstay
  · exact .inr (.inl ⟨hrun, i, instrAtPc_of_decode params_ok hdecode, hexec⟩)
  · exact .inr (.inr hfault)

/-- Every step answers a next state (R185: a fault is one). -/
theorem step_next (s : State) : ∃ t, step s = .next t := by
  obtain ⟨-, hstep⟩ | ⟨-, i, -, hstep⟩ | ⟨-, e, -, hstep⟩ := step_cases s
  · exact ⟨s, hstep⟩
  · obtain ⟨t, hexec, -⟩ := exec_shape i s.fetchOpcode
    exact ⟨t, hstep.trans hexec⟩
  · exact ⟨_, hstep⟩

end Sys2Proof.Machine

namespace Sys2Proof

open Sys2Proof.Machine

/-- Settles O9: the decoder gives back the instruction whose encoding stands at PC. -/
theorem stepRunsUnderEveryParameterChoice : Obligations.StepRunsUnderEveryParameterChoice := by
  intro p hp i s hrun hat
  obtain ⟨rest, hdecode⟩ := decode_fetchWindow_of_instrAtPc hp hat
  rw [stepWith_of_decode hrun hdecode, fetchOpcode_of_instrAtPc hat]

/-- Settles O8: the default parameters are one admissible choice. -/
theorem stepRunsTheDecodedInstruction : Obligations.StepRunsTheDecodedInstruction :=
  stepRunsUnderEveryParameterChoice Config.params params_ok

/-- Settles O16: every instruction answers a next state, and the dispatcher's faults are next states. -/
theorem everyStepAnswersNext : Obligations.EveryStepAnswersNext := step_next

end Sys2Proof
end

section
/-! Which instruction raises which fault (spec/60_exceptions.md R180, R186, R189), and the obligations on a single
instruction's faults. -/

namespace Sys2Proof.Machine

/-- The fault of an instruction's execute phase, on operands that name registers (R189, item 5). -/
def handlerFault (s : State) : Instr → Option (FaultCause × Nat)
  | .div _ b | .mod _ b => if (s.reg (regAt b.toNat)).toNat = 0 then some (.arithmeticFault, 0) else none
  | .call _ =>
    if 256 ≤ s.pc.toNat + 2 then some (.outOfBounds, s.pc.toNat + 2)
    else if (s.reg .r7).toNat = 0 then some (.stackExhausted, 0) else none
  | .push _ => if (s.reg .r7).toNat = 0 then some (.stackExhausted, 0) else none
  | .pop _ | .ret => if (s.reg .r7).toNat = 255 then some (.stackExhausted, 0) else none
  | .hlt | .prn _ | .pra _ | .prast _ | .jmp _ | .jeq _ | .jne _ | .not _ | .ldi _ _ | .addi _ _ => none
  | .add _ _ | .sub _ _ | .mul _ _ | .cmp _ _ | .and _ _ | .or _ _ | .xor _ _ | .shl _ _ | .shr _ _ => none

/-- The fault of an instruction: the first register operand of 8 or more, or else the execute phase's (R189, items 4
and 5). -/
def instrFault (i : Instr) (s : State) : Option (FaultCause × Nat) :=
  match i.regOperands.find? (fun b => decide (8 ≤ b.toNat)) with
  | some v => some (.invalidRegister, v.toNat)
  | none => handlerFault s i

theorem instrFault_of_invalid {i : Instr} {v : Byte} (s : State)
    (h : i.regOperands.find? (fun b => decide (8 ≤ b.toNat)) = some v) :
    instrFault i s = some (.invalidRegister, v.toNat) := by
  simp only [instrFault, h]

theorem find?_invalid_of_wellFormed {i : Instr} (h : i.wellFormed = true) :
    i.regOperands.find? (fun b => decide (8 ≤ b.toNat)) = none := by
  simpa [Instr.wellFormed, namesRegister] using h

theorem instrFault_of_wellFormed {i : Instr} (s : State) (h : i.wellFormed = true) :
    instrFault i s = handlerFault s i := by
  simp only [instrFault, find?_invalid_of_wellFormed h]

theorem State.addressAfter_call (s : State) (a : Byte) : s.addressAfter (.call a) = s.pc.toNat + 2 := by
  rw [State.addressAfter, Instr.size_eq]
  rfl

@[simp] theorem regAt_index (r : Reg) : regAt r.index = r := by cases r <;> rfl

/-- Operands that are the indices of registers make an instruction well formed. -/
theorem wellFormed_of_indices {i : Instr} (h : ∀ b ∈ i.regOperands, ∃ r : Reg, b.toNat = r.index) :
    i.wellFormed = true := by
  refine List.all_eq_true.mpr fun b hb => ?_
  obtain ⟨r, hr⟩ := h b hb
  simp [namesRegister, hr, r.index_lt]

/-- An instruction whose execute phase has been reached is well formed; otherwise its first invalid operand has been
raised (R96). -/
theorem ExecShape.wellFormed_or_invalid {s t : State} {i : Instr} (h : ExecShape s i t) :
    i.wellFormed = true ∨ ∃ v : Byte, i.regOperands.find? (fun b => decide (8 ≤ b.toNat)) = some v ∧
      t = s.raise .invalidRegister v.zext9 := by
  cases h with
  | invalid v hv => exact .inr ⟨v, hv, rfl⟩
  | writes a ra v hop ha hw hpc hd hok => exact .inl hok
  | divZero a b ra rb hi ha hb =>
    left
    obtain rfl | rfl := hi <;>
      exact wellFormed_of_indices (List.forall_mem_cons.mpr ⟨⟨ra, ha⟩, by simpa using ⟨rb, hb⟩⟩)
  | compares a b ra rb ha hb =>
    exact .inl (wellFormed_of_indices (List.forall_mem_cons.mpr ⟨⟨ra, ha⟩, by simpa using ⟨rb, hb⟩⟩))
  | halts | returns hsp => exact .inl rfl
  | prints k a ra hi ha =>
    left
    obtain ⟨-, rfl⟩ | ⟨-, rfl⟩ | ⟨-, rfl⟩ := hi <;> exact wellFormed_of_indices (List.forall_mem_singleton.mpr ⟨ra, ha⟩)
  | jumps a ra hi ha =>
    left
    obtain rfl | rfl | rfl := hi <;> exact wellFormed_of_indices (List.forall_mem_singleton.mpr ⟨ra, ha⟩)
  | fallsThrough a ra hi ha =>
    left
    obtain rfl | rfl := hi <;> exact wellFormed_of_indices (List.forall_mem_singleton.mpr ⟨ra, ha⟩)
  | pushes a ra ha | pops a ra ha | calls a ra ha | returnTooFar a ra ha =>
    exact .inl (wellFormed_of_indices (List.forall_mem_singleton.mpr ⟨ra, ha⟩))
  | pushExhausts a ra hi ha =>
    left
    obtain rfl | ⟨rfl, -⟩ := hi <;> exact wellFormed_of_indices (List.forall_mem_singleton.mpr ⟨ra, ha⟩)
  | popExhausts hi =>
    left
    obtain ⟨a, ra, rfl, ha⟩ | rfl := hi
    · exact wellFormed_of_indices (List.forall_mem_singleton.mpr ⟨ra, ha⟩)
    · rfl

/-- An instruction that writes a result has no fault to raise: the one that could have is a division, and its divisor is
not 0. -/
theorem handlerFault_of_writes {s : State} {i : Instr} (hw : writesOperandOne i = true)
    (hd : ∀ b c rc, i = .div b c ∨ i = .mod b c → c.toNat = rc.index → s.reg rc ≠ 0) (hok : i.wellFormed = true) :
    handlerFault s i = none := by
  have hdivisor (a b : Byte) (hi : i = .div a b ∨ i = .mod a b) : (s.reg (regAt b.toNat)).toNat ≠ 0 := by
    obtain ⟨rb, hb⟩ | hb := Reg.of_byte_cases b
    · rw [hb, regAt_index]; exact fun hz => hd a b rb hi hb (BitVec.eq_of_toNat_eq hz)
    · obtain rfl | rfl := hi <;> simp [Instr.wellFormed, Instr.regOperands, namesRegister] at hok <;> omega
  cases i with
  | div a b => exact if_neg (hdivisor a b (.inl rfl))
  | mod a b => exact if_neg (hdivisor a b (.inr rfl))
  | push | pop | call | ret => cases hw
  | _ => rfl

/-- The state `t` is not Faulted if `s` is not, and has the fault registers of `s`. -/
def NoNewFault (s t : State) : Prop :=
  (t.run = s.run ∨ t.run = .halted) ∧ t.faultCause = s.faultCause ∧ t.faultInfo = s.faultInfo

/-- Everything the execute phase of a well-formed instruction can do about faults. -/
theorem ExecShape.handlerFault_cases {s t : State} {i : Instr} (h : ExecShape s i t) (hwf : i.wellFormed = true) :
    (∃ c n, handlerFault s i = some (c, n) ∧ t = s.raise c (BitVec.ofNat 9 n)) ∨
    (handlerFault s i = none ∧ NoNewFault s t) := by
  cases h with
  | invalid v hv => cases hv.symm.trans (find?_invalid_of_wellFormed hwf)
  | divZero a b ra rb hi ha hb hz =>
    refine .inl ⟨.arithmeticFault, 0, ?_, rfl⟩
    have hz' : (s.reg (regAt b.toNat)).toNat = 0 := by rw [hb, regAt_index, hz]; rfl
    obtain rfl | rfl := hi <;> exact if_pos hz'
  | writes a ra v hop ha hw hpc hd hok =>
    exact .inr ⟨handlerFault_of_writes hw hd hok, by simp [NoNewFault]⟩
  | compares => exact .inr ⟨rfl, by simp [NoNewFault]⟩
  | halts => exact .inr ⟨rfl, by simp [NoNewFault]⟩
  | prints k a ra hi =>
    refine .inr ⟨?_, by simp [NoNewFault]⟩
    obtain ⟨-, rfl⟩ | ⟨-, rfl⟩ | ⟨-, rfl⟩ := hi <;> rfl
  | jumps a ra hi =>
    refine .inr ⟨?_, by simp [NoNewFault]⟩
    obtain rfl | rfl | rfl := hi <;> rfl
  | fallsThrough a ra hi =>
    refine .inr ⟨?_, by simp [NoNewFault]⟩
    obtain rfl | rfl := hi <;> rfl
  | pushes a ra ha hsp => exact .inr ⟨if_neg fun h => hsp (BitVec.eq_of_toNat_eq h), by simp [NoNewFault]⟩
  | pops a ra ha hsp => exact .inr ⟨if_neg fun h => hsp (BitVec.eq_of_toNat_eq h), by simp [NoNewFault]⟩
  | calls a ra ha hret hsp =>
    rw [State.addressAfter_call] at hret
    exact .inr ⟨(if_neg (Nat.not_le.mpr hret)).trans (if_neg fun h => hsp (BitVec.eq_of_toNat_eq h)), by simp [NoNewFault]⟩
  | returns hsp => exact .inr ⟨if_neg fun h => hsp (BitVec.eq_of_toNat_eq h), by simp [NoNewFault]⟩
  | returnTooFar a ra ha hret =>
    rw [State.addressAfter_call] at hret ⊢
    exact .inl ⟨.outOfBounds, _, if_pos hret, rfl⟩
  | pushExhausts a ra hi ha hsp =>
    have hsp' : (s.reg .r7).toNat = 0 := by rw [← State.sp, hsp]; rfl
    refine .inl ⟨.stackExhausted, 0, ?_, rfl⟩
    obtain rfl | ⟨rfl, hret⟩ := hi
    · exact if_pos hsp'
    · rw [State.addressAfter_call] at hret
      exact (if_neg (Nat.not_le.mpr hret)).trans (if_pos hsp')
  | popExhausts hi hsp =>
    have hsp' : (s.reg .r7).toNat = 255 := by rw [← State.sp, hsp]; rfl
    refine .inl ⟨.stackExhausted, 0, ?_, rfl⟩
    obtain ⟨a, ra, rfl, -⟩ | rfl := hi <;> exact if_pos hsp'

/-- Everything an instruction can do about faults: it raises `instrFault` and does nothing else, or has none to raise. -/
theorem exec_fault_cases {i : Instr} {s t : State} (h : exec i s = .next t) :
    (∃ c n, instrFault i s = some (c, n) ∧ t = s.raise c (BitVec.ofNat 9 n)) ∨
    (instrFault i s = none ∧ NoNewFault s t) := by
  have hshape := ExecShape.of_exec h
  obtain hwf | ⟨v, hv, rfl⟩ := hshape.wellFormed_or_invalid
  · rw [instrFault_of_wellFormed s hwf]
    exact hshape.handlerFault_cases hwf
  · exact .inl ⟨.invalidRegister, v.toNat, instrFault_of_invalid s hv, by rw [BitVec.ofNat_toNat]⟩

/-- The fault entry changes the run state and the fault registers only (R185). -/
theorem faultedFrom_raise (s : State) (c : FaultCause) (w : Word9) : FaultedFrom s (s.raise c w) c w.toNat :=
  ⟨rfl, rfl, rfl, fun _ => rfl, fun _ => rfl, ⟨rfl, rfl, rfl⟩, rfl⟩

theorem faultedFrom_raise_ofNat (s : State) (c : FaultCause) {n : Nat} (hn : n < 512) :
    FaultedFrom s (s.raise c (BitVec.ofNat 9 n)) c n := by
  simpa [Nat.mod_eq_of_lt hn] using faultedFrom_raise s c (BitVec.ofNat 9 n)

end Sys2Proof.Machine

namespace Sys2Proof

open Sys2Proof.Machine

/-- Settles O13: an invalid operand is the first fault an instruction can have. -/
theorem invalidOperandRaisesInvalidRegister : Obligations.InvalidOperandRaisesInvalidRegister := by
  intro i s v hv
  obtain ⟨t, hexec, -⟩ := exec_shape i s
  have hfault := instrFault_of_invalid s hv
  obtain ⟨c, n, hsome, rfl⟩ | ⟨hnone, -⟩ := exec_fault_cases hexec
  · cases hfault.symm.trans hsome
    exact ⟨_, hexec, faultedFrom_raise_ofNat s _ (by omega)⟩
  · cases hfault.symm.trans hnone

/-- Settles O15: an instruction that ends Faulted is a fault entry from the state before it. -/
theorem faultingInstructionChangesNothingElse : Obligations.FaultingInstructionChangesNothingElse := by
  intro i s t hrun hexec hfaulted
  obtain ⟨c, n, -, rfl⟩ | ⟨-, hsame | hhalt, -⟩ := exec_fault_cases hexec
  · exact faultedFrom_raise s c _
  · exact absurd (hsame.symm.trans hfaulted) hrun
  · cases hhalt.symm.trans hfaulted

end Sys2Proof
end

section
/-! `firstFault`, which reads the bytes at PC (spec/60_exceptions.md R189), against what a step does, and the obligations
on the faults of a step. -/

namespace Sys2Proof.Machine

/-! ### The fault of the instruction at PC -/

/-- An operand byte of the instruction that stands at PC, as `firstFault` reads it. -/
theorem operand_of_instrAtPc {i : Instr} {s : State} (h : InstrAtPc Config.params i s) {k : Nat} {b : Byte}
    (hk : i.operands[k]? = some b) : Memory.read s.mem (s.pc.toNat + (k + 1)) = b :=
  h.2 (k + 1) b hk

theorem opcode_mem_legalOpcodes (i : Instr) : (i.opcode Config.params).toNat ∈ legalOpcodes := by
  cases i <;> simp [Instr.opcode, Config.params, legalOpcodes]

/-- The execute phase's fault, read from the bytes at PC, is the instruction's own. -/
theorem executeFault_of_instrAtPc {i : Instr} {s : State} (h : InstrAtPc Config.params i s) :
    executeFault s (i.opcode Config.params).toNat (Memory.read s.mem (s.pc.toNat + 2)).toNat = handlerFault s i := by
  cases i with
  | div a b | mod a b =>
    rw [operand_of_instrAtPc h (k := 1) rfl]
    simp [executeFault, handlerFault, Instr.opcode]
  | push a | pop a | call a | ret => simp [executeFault, handlerFault, Instr.opcode]
  | _ => rfl

theorem firstFault_of_instrAtPc {i : Instr} {s : State} (h : InstrAtPc Config.params i s) :
    firstFault s = instrFault i s := by
  have hsize := h.1
  have hexecute := executeFault_of_instrAtPc h
  have hlegal := opcode_mem_legalOpcodes i
  have hcount : (i.opcode Config.params).toNat / 64 = i.operands.length := by
    rw [← operandCount_eq, operandCount_opcode params_ok]
  rw [Instr.size_eq] at hsize
  unfold firstFault
  simp only [read_pc_of_instrAtPc h, hexecute, hcount, hlegal, not_true_eq_false, if_false]
  rw [if_neg (by omega), if_neg (by omega), if_neg (by omega)]
  unfold instrFault
  cases i with
  | hlt | ret => rfl
  | push a | pop a | prn a | pra a | prast a | call a | jmp a | jeq a | jne a | not a =>
    have h1 := operand_of_instrAtPc h (k := 0) rfl
    by_cases ha : 8 ≤ a.toNat <;> simp [Instr.operands, Instr.regOperands, h1, ha]
  | ldi a imm | addi a imm =>
    have h1 := operand_of_instrAtPc h (k := 0) rfl
    by_cases ha : 8 ≤ a.toNat <;> simp [Instr.operands, Instr.regOperands, Instr.opcode, Config.params, h1, ha]
  | add a b | sub a b | mul a b | div a b | mod a b | cmp a b | and a b | or a b | xor a b | shl a b | shr a b =>
    have h1 := operand_of_instrAtPc h (k := 0) rfl
    have h2 := operand_of_instrAtPc h (k := 1) rfl
    by_cases ha : 8 ≤ a.toNat <;> by_cases hb : 8 ≤ b.toNat <;>
      simp [Instr.operands, Instr.regOperands, Instr.opcode, h1, h2, ha, hb]

/-! ### The dispatcher's faults -/

/-- The state after the fetch: IR holds the opcode, unless there was none to fetch (R92). -/
def State.afterFetch (s : State) : State := if s.pc.toNat < 256 then s.fetchOpcode else s

theorem State.afterFetch_of_lt {s : State} (h : s.pc.toNat < 256) : s.afterFetch = s.fetchOpcode := if_pos h

theorem State.afterFetch_of_ge {s : State} (h : 256 ≤ s.pc.toNat) : s.afterFetch = s := if_neg (by omega)

/-- At PC = 255 and below the decoder is given the opcode and what follows it. -/
theorem State.fetchWindow_eq_cons {s : State} (h : s.pc.toNat < 256) :
    ∃ rest, s.fetchWindow = Memory.read s.mem s.pc.toNat :: rest := by
  have hhead : s.fetchWindow[0]? = some (Memory.read s.mem s.pc.toNat) := by
    rw [State.fetchWindow_getElem?, if_pos ⟨by omega, h⟩, Nat.add_zero]
  cases hwindow : s.fetchWindow with
  | nil => rw [hwindow] at hhead; cases hhead
  | cons op rest => rw [hwindow] at hhead; cases hhead; exact ⟨rest, rfl⟩

/-- A step whose bytes are no instruction raises the first fault in the order of R189. -/
theorem firstFault_of_decode_error {s : State} {e : DecodeError} (h : decode Config.params s.fetchWindow = .error e) :
    ∃ c n, firstFault s = some (c, n) ∧ s.raiseDecodeError e = s.afterFetch.raise c (BitVec.ofNat 9 n) := by
  by_cases hpc : s.pc.toNat < 256
  · obtain ⟨rest, hwindow⟩ := State.fetchWindow_eq_cons hpc
    rw [State.afterFetch_of_lt hpc]
    rw [hwindow] at h
    obtain ⟨hno, hunknown⟩ | ⟨handler, hmem, htake⟩ := decode_cons_cases Config.params _ rest
    · cases hunknown.symm.trans h
      rw [mem_dispatchTable_iff_mem_legalOpcodes] at hno
      exact ⟨.unknownOpcode, 0, by simp [firstFault, hno, Nat.not_le.mpr hpc], rfl⟩
    · obtain ⟨hfew, htwo, rfl⟩ :=
        (makes_of_mem_dispatchTable hmem).takeOperands_error params_ok (htake.symm.trans h)
      have hlegal := (mem_dispatchTable_iff_mem_legalOpcodes _).mp (List.mem_map_of_mem (f := Prod.fst) hmem)
      have hin (k : Nat) : k < rest.length + 1 ↔ k < 3 ∧ s.pc.toNat + k < 256 := by
        have hk := s.fetchWindow_getElem? k
        rw [hwindow] at hk
        constructor
        · intro hlt
          by_contra hout
          rw [if_neg hout, List.getElem?_eq_none_iff, List.length_cons] at hk
          omega
        · intro hlt
          rw [if_pos hlt] at hk
          exact (List.getElem?_eq_some_iff.mp hk).1
      have hlast := (hin rest.length).mp (by omega)
      have hpast := mt (hin (rest.length + 1)).mpr (by omega)
      refine ⟨.outOfBounds, s.pc.toNat + (rest.length + 1), ?_, rfl⟩
      unfold firstFault
      simp only [hlegal, not_true_eq_false, if_false]
      rw [if_neg (by omega)]
      obtain hrest | hrest : rest.length = 0 ∨ rest.length = 1 := by omega
      · rw [if_pos (by omega), hrest]
      · rw [if_neg (by omega), if_pos (by omega), hrest]
  · have hpc := Nat.not_lt.mp hpc
    rw [State.fetchWindow_past_memory hpc] at h
    cases h
    rw [State.afterFetch_of_ge hpc]
    exact ⟨.outOfBounds, s.pc.toNat, if_pos hpc, by rw [BitVec.ofNat_toNat, BitVec.setWidth_eq]; rfl⟩

/-! ### The step -/

/-- An instruction does not touch IR (R32). -/
theorem ExecShape.ir_eq {s t : State} {i : Instr} (h : ExecShape s i t) : t.ir = s.ir := by
  cases h <;> simp

/-- The fault of an instruction does not depend on IR. -/
theorem instrFault_fetchOpcode (i : Instr) (s : State) : instrFault i s.fetchOpcode = instrFault i s := by
  cases i <;> rfl

/-- Everything a Running step can do about faults: it raises `firstFault` and changes nothing else but IR, or there is
none to raise. -/
theorem step_fault_cases {s : State} (hrun : s.run = .running) :
    (∃ c n, firstFault s = some (c, n) ∧ step s = .next (s.afterFetch.raise c (BitVec.ofNat 9 n))) ∨
    (firstFault s = none ∧ ∃ t, step s = .next t ∧ NoNewFault s t ∧ t.ir = s.afterFetch.ir) := by
  obtain ⟨hstopped, -⟩ | ⟨-, i, hat, hstep⟩ | ⟨-, e, hdecode, hstep⟩ := step_cases s
  · exact absurd hrun hstopped
  · have hpc : s.pc.toNat < 256 := by have := hat.1; simp only [Instr.size_eq] at this; omega
    obtain ⟨t, hexec, hshape⟩ := exec_shape i s.fetchOpcode
    rw [firstFault_of_instrAtPc hat, State.afterFetch_of_lt hpc, ← instrFault_fetchOpcode, hstep, hexec]
    obtain ⟨c, n, hfault, rfl⟩ | ⟨hnone, hkeeps⟩ := exec_fault_cases hexec
    · exact .inl ⟨c, n, hfault, rfl⟩
    · exact .inr ⟨hnone, t, rfl, hkeeps, hshape.ir_eq⟩
  · obtain ⟨c, n, hfault, hraise⟩ := firstFault_of_decode_error hdecode
    exact .inl ⟨c, n, hfault, by rw [hstep, hraise]⟩

theorem step_of_firstFault {s : State} (hrun : s.run = .running) {c : FaultCause} {n : Nat}
    (h : firstFault s = some (c, n)) : step s = .next (s.afterFetch.raise c (BitVec.ofNat 9 n)) := by
  obtain ⟨c', n', hfault, hstep⟩ | ⟨hnone, -⟩ := step_fault_cases hrun
  · cases hfault.symm.trans h
    exact hstep
  · cases hnone.symm.trans h

/-- Every fault info fits the 9-bit register (R38). -/
theorem firstFault_info_lt {s : State} {c : FaultCause} {n : Nat} (h : firstFault s = some (c, n)) : n < 512 := by
  dsimp only [firstFault, executeFault] at h
  split_ifs at h <;> cases h <;> omega

theorem faultedFrom_of_firstFault {s : State} (hrun : s.run = .running) {c : FaultCause} {n : Nat}
    (h : firstFault s = some (c, n)) : ∃ t, step s = .next t ∧ FaultedFrom s.afterFetch t c n :=
  ⟨_, step_of_firstFault hrun h, faultedFrom_raise_ofNat _ c (firstFault_info_lt h)⟩

theorem step_ir {s t : State} (hrun : s.run = .running) (h : step s = .next t) : t.ir = s.afterFetch.ir := by
  obtain ⟨c, n, -, hstep⟩ | ⟨-, u, hstep, -, hir⟩ := step_fault_cases hrun
  · cases hstep.symm.trans h; rfl
  · cases hstep.symm.trans h; exact hir

/-- A step raises a fault exactly where `firstFault` finds one. -/
theorem run_eq_faulted_iff_of_step {s t : State} (hrun : s.run = .running) (h : step s = .next t) :
    t.run = .faulted ↔ firstFault s ≠ none := by
  obtain ⟨c, n, hfault, hstep⟩ | ⟨hnone, u, hstep, ⟨hkeeps, -⟩, -⟩ := step_fault_cases hrun
  · cases hstep.symm.trans h
    simp [hfault]
  · cases hstep.symm.trans h
    obtain hu | hu := hkeeps <;> simp [hnone, hu, hrun]

end Sys2Proof.Machine

namespace Sys2Proof

open Sys2Proof.Machine

/-- Settles O14: `firstFault` is the dispatcher's fault where the bytes at PC are no instruction, and the instruction's
own fault where they are. -/
theorem stepRaisesTheFirstFault : Obligations.StepRaisesTheFirstFault := by
  intro s hrun
  obtain ⟨c, n, hfault, -⟩ | ⟨hnone, t, hstep, ⟨hkeeps, hcause, hinfo⟩, -⟩ := step_fault_cases hrun
  · simp only [hfault]
    exact faultedFrom_of_firstFault hrun hfault
  · simp only [hnone]
    refine ⟨t, hstep, ?_, hcause, hinfo⟩
    rw [Ne, run_eq_faulted_iff_of_step hrun hstep, hnone]
    simp

/-- Settles O10: past memory the fetch is the first fault, and a step's fetch is all that writes IR. -/
theorem fetchLoadsTheInstructionRegister : Obligations.FetchLoadsTheInstructionRegister := by
  intro s hrun
  refine ⟨fun hpast => ?_, fun hin => ?_⟩
  · have h := faultedFrom_of_firstFault hrun (if_pos hpast : firstFault s = some (.outOfBounds, s.pc.toNat))
    rwa [State.afterFetch_of_ge hpast] at h
  · obtain ⟨t, hstep⟩ := step_next s
    exact ⟨t, hstep, by rw [step_ir hrun hstep, State.afterFetch_of_lt hin, State.fetchOpcode_ir]⟩

/-- Settles O11: an illegal opcode that can be fetched is the first fault. -/
theorem unknownOpcodeFaults : Obligations.UnknownOpcodeFaults := by
  intro s hrun hpc hillegal
  have hfault : firstFault s = some (.unknownOpcode, 0) := by simp [firstFault, hillegal, Nat.not_le.mpr hpc]
  have h := faultedFrom_of_firstFault hrun hfault
  rwa [State.afterFetch_of_lt hpc] at h

/-- Settles O12: behind a legal opcode the first missing operand byte is the one at address 256. -/
theorem operandPastMemoryFaults : Obligations.OperandPastMemoryFaults := by
  intro s hrun hpc hlegal hpast
  have hcount : ∀ op ∈ legalOpcodes, op / 64 ≤ 2 := by decide
  have htwo := hcount _ hlegal
  have hfault : firstFault s = some (.outOfBounds, 256) := by
    unfold firstFault
    simp only [hlegal, not_true_eq_false, if_false]
    rw [if_neg (by omega)]
    by_cases hlast : s.pc.toNat = 255
    · rw [if_pos (by omega), hlast]
    · rw [if_neg (by omega), if_pos (by omega), show s.pc.toNat = 254 by omega]
  have h := faultedFrom_of_firstFault hrun hfault
  rwa [State.afterFetch_of_lt hpc] at h

end Sys2Proof
end

section
/-! Canonical memory is determined by its reads (spec/20_memory.md), what the loader leaves in memory and the reset state
(spec/70_reset_and_hazards.md), and the obligations on memory, reset, boot and the status port. -/

namespace Sys2Proof.Machine

/-! ### Memory -/

theorem Memory.wf_of_cons {c : Host.Cell} {m : Memory} (h : Memory.wf (c :: m)) : Memory.wf m :=
  ⟨h.1.of_cons, fun d hd => h.2 d (List.mem_cons_of_mem _ hd)⟩

/-- A canonical memory lists exactly the cells that do not read as the reset byte. -/
theorem Memory.mem_iff_read {m : Memory} (h : m.wf) (c : Host.Cell) :
    c ∈ m ↔ m.read c.1 = c.2 ∧ c.2 ≠ Config.resetByte := by
  induction m with
  | nil => simp only [List.not_mem_nil, Memory.read_nil, false_iff, not_and_not_right]; exact Eq.symm
  | cons d m ih =>
    have hbelow : ∀ e ∈ m, d.1 < e.1 := (List.pairwise_cons.mp h.1).1
    have hd := (h.2 d List.mem_cons_self).2
    rw [List.mem_cons, ih (Memory.wf_of_cons h)]
    by_cases hc : d.1 = c.1
    · have hfree : Memory.read m c.1 = Config.resetByte := Memory.read_eq_reset fun e he => by have := hbelow e he; omega
      simp only [Memory.read, hc, if_true, hfree]
      constructor
      · rintro (rfl | ⟨hreset, hne⟩)
        · exact ⟨rfl, hd⟩
        · exact absurd hreset.symm hne
      · rintro ⟨h2, -⟩
        exact .inl (Prod.ext hc.symm h2.symm)
    · simp only [Memory.read, if_neg hc]
      constructor
      · rintro (rfl | hin)
        · exact absurd rfl hc
        · exact hin
      · exact .inr

/-- Bytes written in a row read back in order, and the other cells are as before (R204). -/
theorem Memory.read_writeFrom (m : Memory) (a : Nat) (bs : List Byte) (x : Nat) :
    (m.writeFrom a bs).read x = if a ≤ x then bs.getD (x - a) (m.read x) else m.read x := by
  induction bs generalizing m a with
  | nil => simp [Memory.writeFrom]
  | cons b bs ih =>
    rw [Memory.writeFrom, ih]
    obtain hlt | rfl | hgt := Nat.lt_trichotomy x a
    · rw [if_neg (by omega), if_neg (by omega), Memory.read_write_other _ _ (by omega)]
    · rw [if_neg (by omega), if_pos le_rfl, Memory.read_write_self, Nat.sub_self]
      rfl
    · rw [if_pos (by omega), if_pos (by omega), Memory.read_write_other _ _ (by omega),
        show x - a = x - (a + 1) + 1 by omega]
      rfl

end Sys2Proof.Machine

namespace Sys2Proof

open Sys2Proof.Machine

/-- Settles O45: both lists rise strictly and list the cells that do not read as the reset byte. -/
theorem memoryIsDeterminedByItsReads : Obligations.MemoryIsDeterminedByItsReads := by
  intro m n hm hn hread
  have : Std.Irrefl fun c d : Host.Cell => c.1 < d.1 := ⟨fun c => lt_irrefl c.1⟩
  have : Std.Asymm fun c d : Host.Cell => c.1 < d.1 := ⟨fun c d => lt_asymm⟩
  exact hm.1.eq_of_mem_iff hn.1 fun c => by rw [Memory.mem_iff_read hm, Memory.mem_iff_read hn, hread]

/-- Settles O49: the loader writes the image from address 0 into the empty memory, where it fits. -/
theorem bootLoadsTheImage : Obligations.BootLoadsTheImage := by
  intro image
  refine ⟨fun hfits => ⟨_, if_pos hfits, fun a => ?_, ?_, rfl⟩, fun hlong => if_neg (Nat.not_le.mpr hlong)⟩
  · exact Memory.read_writeFrom [] 0 image a
  · exact Memory.wf_writeFrom State.wf_reset ((Nat.zero_add _).trans_le hfits)

/-- Settles O47, register by register. -/
theorem resetRegistersAndProgramCounter : Obligations.ResetRegistersAndProgramCounter :=
  ⟨fun r => by cases r <;> rfl, rfl⟩

/-- Settles O48: the reset state does not depend on the state before it, and its memory lists no cell. -/
theorem resetLeavesEverythingElseZero : Obligations.ResetLeavesEverythingElseZero :=
  fun _ => ⟨rfl, rfl, rfl, rfl, rfl, Memory.read_nil, rfl⟩

/-- Settles O54: the status port of an ended state carries every field but the output stream. -/
theorem endedStatesAreReadWhole : Obligations.EndedStatesAreReadWhole := by
  have hended (s : State) : s.runEnded = true ↔ s.run ≠ .running := bne_iff_ne
  refine ⟨fun s t hs hstatus hout => ?_, fun s hs => ?_⟩
  · simp only [State.status, Status.mk.injEq, (hended s).mpr hs, if_true] at hstatus
    obtain ⟨hrun, hcause, hinfo, hview⟩ := hstatus
    rw [if_pos ((hended t).mpr (hrun ▸ hs)), Option.some.injEq] at hview
    simp only [State.endView, EndView.mk.injEq] at hview
    obtain ⟨hregs, hfl, hpc, hir, hmem⟩ := hview
    cases s; cases t
    simp_all only
  · rw [State.status, if_neg (mt (hended s).mp (not_not.mpr hs)), hs]

end Sys2Proof
end

section
/-! What a step keeps and what a run can reach (spec/10_state.md, spec/40_dispatch.md section 3), and the obligations on
PC, on the run state, on the invariant and on safe runs. -/

namespace Sys2Proof.Machine

/-! ### PC -/

/-- Everything an instruction can do with PC (R98, R99, R186): a fault keeps it, the advance moves it past the
instruction, and a control transfer takes its target from a register or from the top of the stack. -/
theorem ExecShape.pc_cases {s t : State} {i : Instr} (h : ExecShape s i t) :
    (t.run = .faulted ∧ t.pc = s.pc) ∨
    ((AdvancesPc i ∨ (∃ a, i = .jeq a) ∨ ∃ a, i = .jne a) ∧ t.pc = BitVec.ofNat 9 (s.addressAfter i)) ∨
    (setsPc (i.opcode Config.params) = true ∧
      ∃ r : Reg, (∃ b ∈ i.regOperands, b.toNat = r.index) ∧ t.pc = (s.reg r).zext9) ∨
    (i = .ret ∧ t.pc = (s.memRead s.sp).zext9) := by
  have hadvance (u : State) (hi : AdvancesPc i) (hu : u.pc = s.pc) :
      (AdvancesPc i ∨ (∃ a, i = .jeq a) ∨ ∃ a, i = .jne a) ∧ (u.finish i).pc = BitVec.ofNat 9 (s.addressAfter i) :=
    ⟨.inl hi, by rw [State.finish_pc_advances u i hi, State.addressAfter, State.addressAfter, hu]⟩
  cases h with
  | invalid | divZero | returnTooFar | pushExhausts | popExhausts => exact .inl ⟨rfl, rfl⟩
  | writes a ra v hop ha hw hpc => exact .inr (.inl (hadvance _ hpc rfl))
  | compares | halts | pushes | pops => exact .inr (.inl (hadvance _ (setsPc_opcode _) rfl))
  | prints k a ra hi =>
    refine .inr (.inl (hadvance _ ?_ rfl))
    obtain ⟨-, rfl⟩ | ⟨-, rfl⟩ | ⟨-, rfl⟩ := hi <;> exact setsPc_opcode _
  | jumps a ra hi ha =>
    refine .inr (.inr (.inl ⟨?_, ra, ⟨a, ?_, ha⟩, rfl⟩))
    · obtain rfl | rfl | rfl := hi <;> exact setsPc_opcode _
    · obtain rfl | rfl | rfl := hi <;> exact List.mem_singleton_self a
  | fallsThrough a ra hi => exact .inr (.inl ⟨.inr (hi.imp (⟨a, ·⟩) (⟨a, ·⟩)), rfl⟩)
  | calls a ra ha => exact .inr (.inr (.inl ⟨setsPc_opcode _, ra, ⟨a, List.mem_singleton_self a, ha⟩, rfl⟩))
  | returns => exact .inr (.inr (.inr ⟨rfl, rfl⟩))

/-- An address that a byte gives is below 256. -/
theorem zext9_toNat (b : Byte) : b.zext9.toNat = b.toNat :=
  BitVec.toNat_setWidth_of_le (by decide)

theorem ExecShape.pc_le {s t : State} {i : Instr} (h : ExecShape s i t) (hs : s.pc.toNat ≤ 256)
    (hnext : s.addressAfter i ≤ 256) : t.pc.toNat ≤ 256 := by
  obtain ⟨-, hpc⟩ | ⟨-, hpc⟩ | ⟨-, r, -, hpc⟩ | ⟨-, hpc⟩ := h.pc_cases <;> rw [hpc]
  · exact hs
  · exact (BitVec.toNat_ofNat _ _).trans_le ((Nat.mod_le _ _).trans hnext)
  · rw [zext9_toNat]; omega
  · rw [zext9_toNat]; omega

/-! ### FL and memory -/

theorem legalFl_compareFlags (x y : Byte) : legalFl (compareFlags x y) = true := by
  obtain ⟨-, h⟩ | ⟨-, h⟩ | ⟨-, h⟩ := compareFlags_cases x y <;> rw [h] <;> rfl

theorem ExecShape.fl_legal {s t : State} {i : Instr} (h : ExecShape s i t) (hs : legalFl s.fl = true) :
    legalFl t.fl = true := by
  cases h with
  | compares a b ra rb =>
    rw [State.finish_fl, State.setFl_fl, compareFlags_masked]
    exact legalFl_compareFlags _ _
  | _ => simpa using hs

theorem ExecShape.wf_mem {s t : State} {i : Instr} (h : ExecShape s i t) (hs : Memory.wf s.mem) : Memory.wf t.mem := by
  cases h with
  | pushes => rw [State.finish_mem]; exact State.wf_memWrite _ _ hs
  | calls => exact State.wf_memWrite _ _ hs
  | writes | compares | prints | halts | pops => rw [State.finish_mem]; exact hs
  | _ => exact hs

/-! ### The invariant -/

/-- The fault registers of a fault from a PC of the invariant: OutOfBounds records 256 and InvalidRegister a byte of 8 or
more (R6, R38). -/
theorem firstFault_legal {s : State} (hpc : s.pc.toNat ≤ 256) {c : FaultCause} {n : Nat}
    (h : firstFault s = some (c, n)) : c ≠ .noFault ∧ legalFaultInfo c n = true := by
  dsimp only [firstFault, executeFault] at h
  split_ifs at h <;> cases h <;> simp [legalFaultInfo] <;> omega

/-- The part of the invariant that is not about faults, across one instruction. -/
theorem ExecShape.keeps_memory_pc_fl {s t : State} {i : Instr} (h : ExecShape s i t) (hinv : Inv s)
    (hnext : s.addressAfter i ≤ 256) : Memory.wf t.mem ∧ t.pc.toNat ≤ 256 ∧ legalFl t.fl = true :=
  ⟨h.wf_mem hinv.memory, h.pc_le hinv.pc hnext, h.fl_legal hinv.fl⟩

/-- The dispatcher's faults change IR, the run state and the fault registers only (R92 to R95). -/
theorem State.raiseDecodeError_eq_raise (s : State) (e : DecodeError) :
    ∃ c w, s.raiseDecodeError e = s.raise c w ∨ s.raiseDecodeError e = s.fetchOpcode.raise c w := by
  cases e with
  | noOpcode => exact ⟨_, _, .inl rfl⟩
  | unknownOpcode op => exact ⟨_, _, .inr rfl⟩
  | missingOperand k => exact ⟨_, _, .inr rfl⟩

theorem step_keeps_memory_pc_fl {s t : State} (hinv : Inv s) (h : step s = .next t) :
    Memory.wf t.mem ∧ t.pc.toNat ≤ 256 ∧ legalFl t.fl = true := by
  obtain ⟨-, hstep⟩ | ⟨-, i, hat, hstep⟩ | ⟨-, e, -, hstep⟩ := step_cases s
  · cases hstep.symm.trans h
    exact ⟨hinv.memory, hinv.pc, hinv.fl⟩
  · have hfetched : Inv s.fetchOpcode := ⟨hinv.memory, hinv.pc, hinv.fl, hinv.cause, hinv.info⟩
    exact (ExecShape.of_exec (hstep.symm.trans h)).keeps_memory_pc_fl hfetched hat.1
  · cases hstep.symm.trans h
    obtain ⟨c, w, hraise | hraise⟩ := s.raiseDecodeError_eq_raise e <;> rw [hraise] <;>
      exact ⟨hinv.memory, hinv.pc, hinv.fl⟩

/-- Every step keeps the invariant: a fault entry writes legal fault registers, and a step that does not fault leaves
them. -/
theorem inv_of_step {s t : State} (hinv : Inv s) (h : step s = .next t) : Inv t := by
  obtain ⟨hmem, hpc, hfl⟩ := step_keeps_memory_pc_fl hinv h
  by_cases hrun : s.run = .running
  · obtain ⟨c, n, hfault, hstep⟩ | ⟨-, u, hstep, ⟨hkeeps, hcause, hinfo⟩, -⟩ := step_fault_cases hrun
    · cases hstep.symm.trans h
      obtain ⟨hc, hlegal⟩ := firstFault_legal hinv.pc hfault
      refine ⟨hmem, hpc, hfl, by simp [hc], ?_⟩
      rw [State.raise_faultCause, State.raise_faultInfo, BitVec.toNat_ofNat,
        Nat.mod_eq_of_lt (firstFault_info_lt hfault)]
      exact hlegal
    · cases hstep.symm.trans h
      have hnofault : t.faultCause = .noFault := hcause.trans (hinv.cause.mpr (by simp [hrun]))
      refine ⟨hmem, hpc, hfl, ?_, by rw [hcause, hinfo]; exact hinv.info⟩
      obtain hu | hu := hkeeps <;> simp [hnofault, hu, hrun]
  · cases (stepWith_of_stopped hrun).symm.trans h
    exact hinv

theorem inv_reset : Inv State.reset := ⟨Memory.wf_nil, by decide, by decide, by decide, by decide⟩

/-- Loading leaves everything but memory at its reset value, so the invariant asks memory to be canonical. -/
theorem inv_reset_with_mem {m : Memory} (h : m.wf) : Inv { State.reset with mem := m } :=
  ⟨h, inv_reset.pc, inv_reset.fl, inv_reset.cause, inv_reset.info⟩

/-! ### Runs -/

/-- An instruction that ends Halted is HLT (R34). -/
theorem ExecShape.eq_hlt {s t : State} {i : Instr} (h : ExecShape s i t) (hrun : s.run = .running)
    (hhalted : t.run = .halted) : i = .hlt := by
  cases h with
  | halts => rfl
  | _ => simp [hrun] at hhalted

theorem exec_hlt (s : State) : exec .hlt s = .next (s.halt.finish .hlt) := rfl

/-- `State.finish_pc_eq_add_size`, for a known size. -/
theorem State.finish_pc_of_size (s : State) {i : Instr} {n : Nat} (hpc : AdvancesPc i) (hsize : i.size Config.params = n) :
    (s.finish i).pc = s.pc + BitVec.ofNat 9 n :=
  hsize ▸ State.finish_pc_eq_add_size s i hpc

theorem finish_hlt_pc (s : State) : (s.halt.finish .hlt).pc = s.pc + 1 :=
  State.finish_pc_of_size s.halt (setsPc_opcode .hlt) (Instr.size_eq .hlt)

end Sys2Proof.Machine

namespace Sys2Proof

open Sys2Proof.Machine

/-- What every step keeps holds of every state a run reaches. -/
theorem Reachable.of_step_keeps {P : State → Prop} (hstep : ∀ u v, P u → step u = .next v → P v) {s t : State}
    (h : Reachable s t) (hs : P s) : P t := by
  induction h with
  | here => exact hs
  | next _ huv ih => exact hstep _ _ ih huv

/-- Settles O20: the cases of `ExecShape.pc_cases`, told apart by the sets_pc bit. -/
theorem programCounterAfterInstruction : Obligations.ProgramCounterAfterInstruction := by
  intro i s t hrun hexec
  have hafter : BitVec.ofNat 9 (s.addressAfter i) = s.pc + BitVec.ofNat 9 (encode Config.params i).length := by
    rw [encode_length params_ok, State.addressAfter, BitVec.ofNat_add, BitVec.ofNat_toNat, BitVec.setWidth_eq]
  refine ⟨fun hfaulted => ?fault, fun hok hadvances => ?advance, fun hok hsets => ?transfer⟩
  case fault =>
    obtain ⟨-, -, -, -, -, -, hpc⟩ := faultingInstructionChangesNothingElse i s t hrun hexec hfaulted
    exact hpc
  case advance =>
    obtain ⟨hfaulted, -⟩ | ⟨-, hpc⟩ | ⟨hsets, -⟩ | ⟨rfl, -⟩ := (ExecShape.of_exec hexec).pc_cases
    · exact absurd hfaulted hok
    · rw [hpc, hafter]
    · cases hadvances.symm.trans hsets
    · cases hadvances.symm.trans (setsPc_opcode .ret)
  case transfer =>
    obtain ⟨hfaulted, -⟩ | ⟨hadvances | hcond, hpc⟩ | ⟨-, r, hr, hpc⟩ | ⟨hret, hpc⟩ := (ExecShape.of_exec hexec).pc_cases
    · exact absurd hfaulted hok
    · cases hadvances.symm.trans hsets
    · refine .inr (.inr ⟨hcond, ?_⟩)
      rw [hpc, hafter]
      obtain ⟨a, rfl⟩ | ⟨a, rfl⟩ := hcond <;> rfl
    · exact .inl ⟨r, hr, by rw [hpc, zext9_toNat]⟩
    · exact .inr (.inl ⟨hret, by rw [hpc, zext9_toNat]; rfl⟩)

/-- Settles O18: HLT is the halt and the advance, and leaves the rest. -/
theorem haltEntersHalted : Obligations.HaltEntersHalted :=
  fun s => ⟨_, exec_hlt s, by simp, finish_hlt_pc s, by simp, by simp, fun q => by simp, fun x => by simp, by simp, by simp,
    by simp⟩

/-- Settles O19: of the instructions only HLT ends in Halted, and the dispatcher's faults do not. -/
theorem onlyHaltEntersHalted : Obligations.OnlyHaltEntersHalted := by
  intro s t hrun h hhalted
  obtain ⟨hstopped, -⟩ | ⟨-, i, hat, hstep⟩ | ⟨-, e, -, hstep⟩ := step_cases s
  · exact absurd hrun hstopped
  · have hexec := hstep.symm.trans h
    obtain rfl := (ExecShape.of_exec hexec).eq_hlt hrun hhalted
    cases (exec_hlt _).symm.trans hexec
    exact ⟨hat.1, read_pc_of_instrAtPc hat, finish_hlt_pc _⟩
  · cases hstep.symm.trans h
    obtain ⟨c, w, hraise | hraise⟩ := s.raiseDecodeError_eq_raise e <;> rw [hraise] at hhalted <;> cases hhalted

/-- Settles O17: a step of a stopped core answers the same state. -/
theorem stoppedStatesAreAbsorbing : Obligations.StoppedStatesAreAbsorbing := by
  intro s hstopped t hreach
  refine hreach.of_step_keeps (P := (· = s)) (fun u v hu hstep => ?_) rfl
  subst hu
  cases (stepWith_of_stopped hstopped).symm.trans hstep
  rfl

/-- Settles O51: the fault registers by the faults a step can raise, the rest by the shapes of an instruction's next
state. -/
theorem stepKeepsTheInvariant : Obligations.StepKeepsTheInvariant := fun _ _ => inv_of_step

/-- Settles O50: the reset memory lists no cell. -/
theorem resetMeetsTheInvariant : Obligations.ResetMeetsTheInvariant := inv_reset

/-- Settles O52: the loaded image meets the invariant, and every step keeps it. -/
theorem everyRunMeetsTheInvariant : Obligations.EveryRunMeetsTheInvariant := by
  intro image s t hboot hreach
  refine hreach.of_step_keeps (P := Inv) (fun _ _ => inv_of_step) ?_
  by_cases hfits : image.length ≤ Config.memSize
  · cases (if_pos hfits).symm.trans hboot
    exact inv_reset_with_mem (Memory.wf_writeFrom Memory.wf_nil ((Nat.zero_add _).trans_le hfits))
  · cases (if_neg hfits).symm.trans hboot

/-- Settles O53: a Running state has a fault to raise exactly where its step ends Faulted, and a Halted one stays. -/
theorem safeRunsAreTheFaultFreeOnes : Obligations.SafeRunsAreTheFaultFreeOnes := by
  intro s hs
  refine ⟨fun hsafe t hreach hrun => ?_, fun hfree t hreach => ?_⟩
  · obtain ⟨u, hstep⟩ := step_next t
    by_contra hfault
    exact hsafe u (.next hreach hstep) ((run_eq_faulted_iff_of_step hrun hstep).mpr hfault)
  · induction hreach with
    | here => exact hs
    | @next t u hreach hstep ih =>
      by_cases hrun : t.run = .running
      · rw [Ne, run_eq_faulted_iff_of_step hrun hstep, hfree t hreach hrun]
        simp
      · cases (stepWith_of_stopped hrun).symm.trans hstep
        exact ih

end Sys2Proof
end

section
/-! What an ALU instruction, a load or a print does with valid operands (spec/41_alu.md, spec/42_load_output.md), and the
obligations on them. -/

namespace Sys2Proof.Machine

/-! ### Results -/

/-- An instruction that writes one register and advances has changed that register and PC only. -/
theorem writesResult_of_exec {i : Instr} {s : State} {ra : Reg} {v : Byte} {n m : Nat}
    (hexec : exec i s = .next ((s.setReg ra v).finish i)) (hpc : AdvancesPc i) (hsize : i.size Config.params = n)
    (hv : v.toNat = m) : WritesResult i ra m (s.pc + BitVec.ofNat 9 n) s := by
  have hregs (q : Reg) (hq : q ≠ ra) : ((s.setReg ra v).finish i).reg q = s.reg q := by
    rw [State.finish_reg, State.reg_setReg_other s v hq]
  exact ⟨_, hexec, by simp [hv], hregs, fun x => by simp, by simp [SameFlIrOut], by simp [SameRunAndFault],
    State.finish_pc_of_size _ hpc hsize⟩

/-- The common form of the two-register operations, on valid operands (R110). -/
theorem writesResult_of_twoRegAlu {i : Instr} {a b : Byte} {ra rb : Reg} {f : Byte → Byte → Byte} {s : State} {m : Nat}
    (ha : a.toNat = ra.index) (hb : b.toNat = rb.index) (hexec : exec i s = twoRegAlu i a b f s) (hpc : AdvancesPc i)
    (hops : i.operands = [a, b]) (hf : (f (s.reg ra) (s.reg rb)).toNat = m) : WritesResult i ra m (s.pc + 3) s :=
  writesResult_of_exec (hexec.trans (withTwoRegs_of_index ha hb s _)) hpc (by rw [Instr.size_eq, hops]; rfl) hf

/-- The common form of DIV and MOD, on valid operands (R114, R115). -/
theorem twoRegDivide_of_index {a b : Byte} {ra rb : Reg} (ha : a.toNat = ra.index) (hb : b.toNat = rb.index) (i : Instr)
    (f : Byte → Byte → Byte) (s : State) : twoRegDivide i a b f s =
      if s.reg rb = 0 then .next (s.raise .arithmeticFault 0)
      else .next ((s.setReg ra (f (s.reg ra) (s.reg rb))).finish i) :=
  withTwoRegs_of_index ha hb s _

/-- DIV and MOD by 0 (R182). -/
theorem exec_divide_by_zero {i : Instr} {a b : Byte} {ra rb : Reg} {s : State} (hi : i = .div a b ∨ i = .mod a b)
    (ha : a.toNat = ra.index) (hb : b.toNat = rb.index) (hz : (s.reg rb).toNat = 0) :
    exec i s = .next (s.raise .arithmeticFault 0) := by
  have hz : s.reg rb = 0 := BitVec.eq_of_toNat_eq hz
  obtain rfl | rfl := hi <;> exact (twoRegDivide_of_index ha hb _ _ s).trans (if_pos hz)

/-- DIV and MOD by a register that is not 0. -/
theorem writesResult_of_twoRegDivide {i : Instr} {a b : Byte} {ra rb : Reg} {f : Byte → Byte → Byte} {s : State} {m : Nat}
    (ha : a.toNat = ra.index) (hb : b.toNat = rb.index) (hnz : (s.reg rb).toNat ≠ 0)
    (hexec : exec i s = twoRegDivide i a b f s) (hpc : AdvancesPc i) (hops : i.operands = [a, b])
    (hf : (f (s.reg ra) (s.reg rb)).toNat = m) : WritesResult i ra m (s.pc + 3) s := by
  have hnz : s.reg rb ≠ 0 := fun h => hnz (by rw [h]; rfl)
  refine writesResult_of_exec (hexec.trans ?_) hpc (by rw [Instr.size_eq, hops]; rfl) hf
  exact (twoRegDivide_of_index ha hb i f s).trans (if_neg hnz)

/-! ### Compare -/

theorem compareFlags_of_eq {x y : Byte} (h : x.toNat = y.toNat) : compareFlags x y = 0x01 :=
  if_pos (BitVec.eq_of_toNat_eq h)

theorem compareFlags_of_gt {x y : Byte} (h : y.toNat < x.toNat) : compareFlags x y = 0x02 :=
  (if_neg (by rintro rfl; omega)).trans (if_pos h)

theorem compareFlags_of_lt {x y : Byte} (h : x.toNat < y.toNat) : compareFlags x y = 0x04 :=
  (if_neg (by rintro rfl; omega)).trans (if_neg (by omega))

theorem exec_cmp_of_index {a b : Byte} {ra rb : Reg} (ha : a.toNat = ra.index) (hb : b.toNat = rb.index) (s : State) :
    exec (.cmp a b) s = .next ((s.setFl (compareFlags (s.reg ra) (s.reg rb))).finish (.cmp a b)) :=
  withTwoRegs_of_index ha hb s _

theorem finish_cmp_pc (s : State) (v a b : Byte) : ((s.setFl v).finish (.cmp a b)).pc = s.pc + 3 :=
  State.finish_pc_of_size _ (setsPc_opcode (.cmp a b)) (Instr.size_eq (.cmp a b))

/-! ### Prints -/

theorem prints_of_exec_eq_printReg_of_operands {i : Instr} {k : OutputKind} {a : Byte} {ra : Reg} {s : State}
    (ha : a.toNat = ra.index) (hexec : exec i s = printReg i k a s) (hpc : AdvancesPc i) (hops : i.operands = [a]) :
    Prints i ⟨k, s.reg ra⟩ (s.pc + 2) s := by
  have hprints := prints_of_exec_eq_printReg hexec hpc ha
  rwa [Instr.size_eq, hops] at hprints

end Sys2Proof.Machine

namespace Sys2Proof

open Sys2Proof.Machine

/-- Settles O21: the two-register form, with the library's values of the 8-bit operations. -/
theorem addSubMulReduceModulo256 : Obligations.AddSubMulReduceModulo256 := by
  intro s a b ra rb ha hb
  have hsub (x y : Byte) : (x - y).toNat = (((x.toNat : Int) - (y.toNat : Int)) % 256).toNat := by
    rw [BitVec.toNat_sub]; omega
  exact ⟨writesResult_of_twoRegAlu ha hb rfl (setsPc_opcode (.add a b)) rfl (BitVec.toNat_add _ _),
    writesResult_of_twoRegAlu ha hb rfl (setsPc_opcode (.sub a b)) rfl (hsub _ _),
    writesResult_of_twoRegAlu ha hb rfl (setsPc_opcode (.mul a b)) rfl (BitVec.toNat_mul _ _)⟩

/-- Settles O22: the common form of DIV and MOD, by cases of the divisor. -/
theorem divModAndDivisionByZero : Obligations.DivModAndDivisionByZero := by
  intro s a b ra rb ha hb
  refine ⟨fun hnz => ⟨?_, ?_⟩, fun hz => ⟨?_, ?_⟩⟩
  · exact writesResult_of_twoRegDivide ha hb hnz rfl (setsPc_opcode (.div a b)) rfl BitVec.toNat_udiv
  · exact writesResult_of_twoRegDivide ha hb hnz rfl (setsPc_opcode (.mod a b)) rfl BitVec.toNat_umod
  · exact ⟨_, exec_divide_by_zero (.inl rfl) ha hb hz, faultedFrom_raise s _ 0⟩
  · exact ⟨_, exec_divide_by_zero (.inr rfl) ha hb hz, faultedFrom_raise s _ 0⟩

/-- Settles O23: the two-register form for AND, OR and XOR; NOT writes its one register. -/
theorem logicWorksBitByBit : Obligations.LogicWorksBitByBit := by
  intro s a b ra rb ha hb
  refine ⟨?_, ?_, ?_, ?_⟩
  · exact writesResult_of_twoRegAlu ha hb rfl (setsPc_opcode (.and a b)) rfl (BitVec.toNat_and _ _)
  · exact writesResult_of_twoRegAlu ha hb rfl (setsPc_opcode (.or a b)) rfl (BitVec.toNat_or _ _)
  · exact writesResult_of_twoRegAlu ha hb rfl (setsPc_opcode (.xor a b)) rfl (BitVec.toNat_xor _ _)
  · exact writesResult_of_exec (withReg_of_index ha s _) (setsPc_opcode (.not a)) (Instr.size_eq (.not a)) BitVec.toNat_not

/-- Settles O24: the two-register form, with the shifts as multiplication and division by a power of two. -/
theorem shiftsUseTheWholeAmount : Obligations.ShiftsUseTheWholeAmount := by
  intro s a b ra rb ha hb
  refine ⟨?_, ?_⟩
  · refine writesResult_of_twoRegAlu (f := fun x y => x <<< y.toNat) ha hb rfl (setsPc_opcode (.shl a b)) rfl ?_
    rw [BitVec.toNat_shiftLeft, Nat.shiftLeft_eq]
  · refine writesResult_of_twoRegAlu (f := fun x y => x >>> y.toNat) ha hb rfl (setsPc_opcode (.shr a b)) rfl ?_
    rw [BitVec.toNat_ushiftRight, Nat.shiftRight_eq_div_pow]

/-- Settles O25: ADDI writes its one register; no register check applies to the immediate. -/
theorem addImmediateReducesModulo256 : Obligations.AddImmediateReducesModulo256 := fun s a imm _ ha =>
  writesResult_of_exec (withReg_of_index ha s _) (setsPc_opcode (.addi a imm)) (Instr.size_eq (.addi a imm))
    (BitVec.toNat_add _ _)

/-- Settles O29: LDI writes its one register, with any immediate. -/
theorem loadImmediateWritesTheRegister : Obligations.LoadImmediateWritesTheRegister := fun s a imm _ ha =>
  ⟨rfl, writesResult_of_exec (withReg_of_index ha s _) (setsPc_opcode (.ldi a imm)) (Instr.size_eq (.ldi a imm)) rfl⟩

/-- Settles O26: the three outcomes of the unsigned comparison exclude each other. -/
theorem compareSetsOneFlag : Obligations.CompareSetsOneFlag := by
  intro s a b ra rb ha hb
  have hfl : ((s.setFl (compareFlags (s.reg ra) (s.reg rb))).finish (.cmp a b)).fl =
      compareFlags (s.reg ra) (s.reg rb) := by
    rw [State.finish_fl, State.setFl_fl, compareFlags_masked]
  exact ⟨_, exec_cmp_of_index ha hb s, fun h => hfl.trans (compareFlags_of_eq h), fun h => hfl.trans (compareFlags_of_gt h),
    fun h => hfl.trans (compareFlags_of_lt h), finish_cmp_pc s _ a b, fun q => by simp, fun x => by simp, by simp, by simp,
    by simp [SameRunAndFault]⟩

/-- Settles O28: of the shapes of an instruction's next state only the one of a division by zero has this cause. -/
theorem arithmeticFaultOnlyByDivisionByZero : Obligations.ArithmeticFaultOnlyByDivisionByZero := by
  intro i s hcause
  refine ⟨⟨fun ⟨t, hexec, ht⟩ => ?_, fun ⟨a, b, hi, ra, rb, ha, hb, hz⟩ => ?_⟩, fun t hexec ht => ?_⟩
  · cases ExecShape.of_exec hexec with
    | divZero a b ra rb hi ha hb hz => exact ⟨a, b, hi, ra, rb, ha, hb, by rw [hz]; rfl⟩
    | _ => simp [hcause] at ht
  · exact ⟨_, exec_divide_by_zero hi ha hb hz, rfl⟩
  · obtain ⟨c, n, -, rfl⟩ | ⟨-, -, hsame, -⟩ := exec_fault_cases hexec
    · rfl
    · cases ht.symm.trans (hsame.trans hcause)

/-- Settles O31: PRA and PRAST are the prints of kinds Chr and Stars. -/
theorem printCharAndStarsSendOneEvent : Obligations.PrintCharAndStarsSendOneEvent := fun s a _ ha =>
  ⟨prints_of_exec_eq_printReg_of_operands (s := s) ha rfl (setsPc_opcode (.pra a)) rfl,
    prints_of_exec_eq_printReg_of_operands (s := s) ha rfl (setsPc_opcode (.prast a)) rfl⟩

/-- Settles O32: of the shapes of an instruction's next state only a print's touches the output stream. -/
theorem outputGrowsOnlyByPrints : Obligations.OutputGrowsOnlyByPrints := by
  intro i s t hexec
  cases ExecShape.of_exec hexec with
  | prints k a ra hi ha =>
    refine .inr ⟨k, ra, ⟨a, ?_, ha⟩, by simp, hi.imp (And.imp_right (⟨a, ·⟩))
      (Or.imp (And.imp_right (⟨a, ·⟩)) (And.imp_right (⟨a, ·⟩)))⟩
    obtain ⟨-, rfl⟩ | ⟨-, rfl⟩ | ⟨-, rfl⟩ := hi <;> exact List.mem_singleton_self a
  | invalid | divZero | returnTooFar | pushExhausts | popExhausts => exact .inl ⟨rfl, .inl rfl⟩
  | writes a ra v hop ha hw =>
    refine .inl ⟨by simp, .inr fun b => ⟨?_, ?_, ?_⟩⟩ <;> rintro rfl <;> cases hw
  | jumps a ra hi =>
    refine .inl ⟨rfl, .inr fun b => ?_⟩
    obtain rfl | rfl | rfl := hi <;> simp
  | fallsThrough a ra hi =>
    refine .inl ⟨rfl, .inr fun b => ?_⟩
    obtain rfl | rfl := hi <;> simp
  | _ => exact .inl ⟨by simp, .inr fun b => by simp⟩

end Sys2Proof
end

section
/-! What the stack instructions do (spec/43_stack.md) and what the next fetch sees of it, and the obligations on the stack
and on who writes memory. -/

namespace Sys2Proof.Machine

/-! ### Push and pop -/

theorem State.push_of_ne_zero {s : State} (h : (s.reg .r7).toNat ≠ 0) (v : Byte) :
    s.push v = some ((s.setSp (s.sp - 1)).memWrite (s.sp - 1) v) :=
  if_neg fun hsp => h (congrArg BitVec.toNat hsp)

theorem State.push_of_eq_zero {s : State} (h : (s.reg .r7).toNat = 0) (v : Byte) : s.push v = none :=
  if_pos (BitVec.eq_of_toNat_eq h)

theorem State.pop_of_ne_max {s : State} (h : (s.reg .r7).toNat ≠ 255) :
    s.pop = some (s.memRead s.sp, s.setSp (s.sp + 1)) :=
  if_neg fun hsp => h (congrArg BitVec.toNat hsp)

theorem State.pop_of_eq_max {s : State} (h : (s.reg .r7).toNat = 255) : s.pop = none :=
  if_pos (BitVec.eq_of_toNat_eq h)

/-- The cell a push writes is the one below SP (R150). -/
theorem sp_sub_one_toNat_of_ne_zero {s : State} (h : (s.reg .r7).toNat ≠ 0) :
    (s.sp - 1).toNat = (s.reg .r7).toNat - 1 :=
  sp_sub_one_toNat fun hsp => h (congrArg BitVec.toNat hsp)

theorem sp_add_one_toNat_of_ne_max {s : State} (h : (s.reg .r7).toNat ≠ 255) :
    (s.sp + 1).toNat = (s.reg .r7).toNat + 1 :=
  sp_add_one_toNat fun hsp => h (congrArg BitVec.toNat hsp)

/-- The state `t` is `s` after a push of `v`, wherever its PC is. -/
def Pushed (v : Byte) (s t : State) : Prop :=
  (t.reg .r7).toNat = (s.reg .r7).toNat - 1 ∧ Memory.read t.mem ((s.reg .r7).toNat - 1) = v ∧
  SameMemoryBut ((s.reg .r7).toNat - 1) s t ∧ SameRegsBut .r7 s t ∧ SameFlIrOut s t ∧ SameRunAndFault s t

theorem pushed_setPc {s : State} (hsp : (s.reg .r7).toNat ≠ 0) (v : Byte) (w : Word9) :
    Pushed v s (((s.setSp (s.sp - 1)).memWrite (s.sp - 1) v).setPc w) := by
  refine ⟨?_, ?_, fun x hx => ?_, fun q hq => ?_, ⟨rfl, rfl, rfl⟩, rfl, rfl, rfl⟩
  · rw [State.setPc_reg, State.memWrite_reg, State.reg_setSp_self, sp_sub_one_toNat_of_ne_zero hsp]
  · rw [State.setPc_mem, State.memWrite_mem, sp_sub_one_toNat_of_ne_zero hsp, Memory.read_write_self]
  · rw [State.setPc_mem, State.memWrite_mem, sp_sub_one_toNat_of_ne_zero hsp, Memory.read_write_other _ _ hx,
      State.setSp_mem]
  · rw [State.setPc_reg, State.memWrite_reg, State.reg_setSp_other _ _ hq]

/-- The advance phase, where it moves PC, only sets it. -/
theorem State.finish_eq_setPc (s : State) {i : Instr} {n : Nat} (hpc : AdvancesPc i) (hsize : i.size Config.params = n) :
    s.finish i = s.setPc (s.pc + BitVec.ofNat 9 n) := by
  rw [← State.finish_pc_of_size s hpc hsize, State.finish, if_neg (by simp [hpc])]
  rfl

/-! ### The instructions, on valid operands -/

theorem exec_push_of_index {a : Byte} {ra : Reg} (ha : a.toNat = ra.index) {s : State} (hsp : (s.reg .r7).toNat ≠ 0) :
    exec (.push a) s =
      .next (((s.setSp (s.sp - 1)).memWrite (s.sp - 1) (s.reg ra)).setPc (s.pc + 2)) := by
  refine (withReg_of_index ha s _).trans ?_
  rw [State.push_of_ne_zero hsp]
  exact congrArg Host.Outcome.next (State.finish_eq_setPc _ (setsPc_opcode (.push a)) (Instr.size_eq (.push a)))

theorem exec_push_exhausted {a : Byte} {ra : Reg} (ha : a.toNat = ra.index) {s : State} (hsp : (s.reg .r7).toNat = 0) :
    exec (.push a) s = .next (s.raise .stackExhausted 0) := by
  refine (withReg_of_index ha s _).trans ?_
  rw [State.push_of_eq_zero hsp]
  rfl

theorem exec_pop_of_index {a : Byte} {ra : Reg} (ha : a.toNat = ra.index) {s : State} (hsp : (s.reg .r7).toNat ≠ 255) :
    exec (.pop a) s = .next (((s.setSp (s.sp + 1)).setReg ra (s.memRead s.sp)).setPc (s.pc + 2)) := by
  refine (withReg_of_index ha s _).trans ?_
  rw [State.pop_of_ne_max hsp]
  exact congrArg Host.Outcome.next (State.finish_eq_setPc _ (setsPc_opcode (.pop a)) (Instr.size_eq (.pop a)))

theorem exec_pop_exhausted {a : Byte} {ra : Reg} (ha : a.toNat = ra.index) {s : State} (hsp : (s.reg .r7).toNat = 255) :
    exec (.pop a) s = .next (s.raise .stackExhausted 0) := by
  refine (withReg_of_index ha s _).trans ?_
  rw [State.pop_of_eq_max hsp]
  rfl

/-- CALL on a valid operand: the return address is checked first, then SP (R155). -/
theorem exec_call_of_index {a : Byte} {ra : Reg} (ha : a.toNat = ra.index) (s : State) :
    exec (.call a) s =
      if 256 ≤ s.pc.toNat + 2 then .next (s.raise .outOfBounds (BitVec.ofNat 9 (s.pc.toNat + 2)))
      else if (s.reg .r7).toNat = 0 then .next (s.raise .stackExhausted 0)
      else .next (((s.setSp (s.sp - 1)).memWrite (s.sp - 1) (BitVec.ofNat 8 (s.pc.toNat + 2))).setPc
        (s.reg ra).zext9) := by
  refine (withReg_of_index ha s _).trans ?_
  simp only [State.addressAfter_call, Config.memSize]
  by_cases hret : 256 ≤ s.pc.toNat + 2
  · rw [if_pos hret, if_pos hret]
  · rw [if_neg hret, if_neg hret]
    by_cases hsp : (s.reg .r7).toNat = 0
    · rw [State.push_of_eq_zero hsp, if_pos hsp]; rfl
    · rw [State.push_of_ne_zero hsp, if_neg hsp]
      exact congrArg Host.Outcome.next (State.finish_sets_pc _ _ (setsPc_opcode (.call a)))

theorem exec_ret_of_ne_max {s : State} (hsp : (s.reg .r7).toNat ≠ 255) :
    exec .ret s = .next ((s.setSp (s.sp + 1)).setPc (s.memRead s.sp).zext9) := by
  rw [exec, execRet, State.pop_of_ne_max hsp]
  exact congrArg Host.Outcome.next (State.finish_sets_pc _ _ (setsPc_opcode .ret))

theorem exec_ret_exhausted {s : State} (hsp : (s.reg .r7).toNat = 255) :
    exec .ret s = .next (s.raise .stackExhausted 0) := by
  rw [exec, execRet, State.pop_of_eq_max hsp]
  rfl

end Sys2Proof.Machine

namespace Sys2Proof

open Sys2Proof.Machine

/-- Settles O33: the push and the advance, or the fault entry. -/
theorem pushStoresBelowTheStackPointer : Obligations.PushStoresBelowTheStackPointer := by
  refine fun s a ra ha => ⟨fun hsp => ?_, fun hsp => ⟨_, exec_push_exhausted ha hsp, faultedFrom_raise s _ 0⟩⟩
  obtain ⟨hr7, hcell, hmem, hregs, hfl, hrun⟩ := pushed_setPc hsp (s.reg ra) (s.pc + 2)
  exact ⟨_, exec_push_of_index ha hsp, hr7, hcell, hmem, hregs, rfl, hfl, hrun⟩

/-- Settles O34: the register is written after SP, so it wins where it is R7. -/
theorem popLoadsFromTheStackPointer : Obligations.PopLoadsFromTheStackPointer := by
  refine fun s a ra ha => ⟨fun hsp => ?_, fun hsp => ⟨_, exec_pop_exhausted ha hsp, faultedFrom_raise s _ 0⟩⟩
  refine ⟨_, exec_pop_of_index ha hsp, ?_, fun hr7 => ?_, fun q hqa hq7 => ?_, fun _ => rfl, rfl, ⟨rfl, rfl, rfl⟩,
    rfl, rfl, rfl⟩
  · rw [State.setPc_reg, State.reg_setReg_self]; rfl
  · rw [State.setPc_reg, State.reg_setReg_other _ _ hr7.symm, State.reg_setSp_self, sp_add_one_toNat_of_ne_max hsp]
  · rw [State.setPc_reg, State.reg_setReg_other _ _ hqa, State.reg_setSp_other _ _ hq7]

/-- Settles O35: the three outcomes of CALL, told apart by the return address and SP. -/
theorem callPushesTheReturnAddress : Obligations.CallPushesTheReturnAddress := by
  refine fun s a ra ha => ⟨fun hret hsp => ?_, fun hret hsp => ?_, fun hret hpc => ?_⟩ <;>
    have hexec := exec_call_of_index ha s
  · rw [if_neg (by omega), if_neg hsp] at hexec
    obtain ⟨hr7, hcell, hmem, hregs, hfl, hrun⟩ :=
      pushed_setPc hsp (BitVec.ofNat 8 (s.pc.toNat + 2)) (s.reg ra).zext9
    refine ⟨_, hexec, hr7, ?_, hmem, hregs, zext9_toNat _, hfl, hrun⟩
    rw [hcell, BitVec.toNat_ofNat, Nat.mod_eq_of_lt hret]
  · rw [if_neg (by omega), if_pos hsp] at hexec
    exact ⟨_, hexec, faultedFrom_raise s _ 0⟩
  · rw [if_pos hret] at hexec
    exact ⟨_, hexec, faultedFrom_raise_ofNat s _ (by omega)⟩

/-- Settles O36: the pop and the jump to the popped byte, or the fault entry. -/
theorem returnPopsTheProgramCounter : Obligations.ReturnPopsTheProgramCounter := by
  refine fun s => ⟨fun hsp => ?_, fun hsp => ⟨_, exec_ret_exhausted hsp, faultedFrom_raise s _ 0⟩⟩
  refine ⟨_, exec_ret_of_ne_max hsp, zext9_toNat _, ?_, fun q hq => ?_, fun _ => rfl, ⟨rfl, rfl, rfl⟩, rfl, rfl, rfl⟩
  · rw [State.setPc_reg, State.reg_setSp_self, sp_add_one_toNat_of_ne_max hsp]
  · rw [State.setPc_reg, State.reg_setSp_other _ _ hq]

/-- Settles O37: the POP reads the cell the PUSH wrote. -/
theorem pushThenPopMovesTheValue : Obligations.PushThenPopMovesTheValue := by
  intro s a b ra rb ha hb _ hrb hsp
  obtain ⟨t, hpush, hr7, hcell, -, hregs, -⟩ := (pushStoresBelowTheStackPointer s a ra ha).1 hsp
  obtain ⟨u, hpop, hvalue, hr7', hregs', -⟩ := (popLoadsFromTheStackPointer t b rb hb).1 (by omega)
  have hrestored : u.reg .r7 = s.reg .r7 := BitVec.eq_of_toNat_eq (by have := hr7' hrb; omega)
  refine ⟨t, u, hpush, hpop, by rw [hvalue, hr7, hcell], hrestored, fun q hq => ?_⟩
  by_cases hq7 : q = .r7
  · rw [hq7, hrestored]
  · rw [hregs' q hq hq7, hregs q hq7]

/-- Settles O38: the RET reads the return address the CALL pushed. -/
theorem callThenReturnComesBack : Obligations.CallThenReturnComesBack := by
  intro s a ra ha hret hsp
  obtain ⟨t, hcall, hr7, hcell, -, hregs, -⟩ := (callPushesTheReturnAddress s a ra ha).1 hret hsp
  obtain ⟨u, hreturn, hpc, hr7', hregs', -⟩ := (returnPopsTheProgramCounter t).1 (by omega)
  refine ⟨t, u, hcall, hreturn, BitVec.eq_of_toNat_eq ?_, fun q => ?_⟩
  · rw [hpc, hr7, hcell, BitVec.toNat_add, Nat.mod_eq_of_lt (by simp; omega)]; rfl
  · by_cases hq7 : q = .r7
    · rw [hq7]
      exact BitVec.eq_of_toNat_eq (by omega)
    · rw [hregs' q hq7, hregs q hq7]

/-- Settles O39: of the shapes of an instruction's next state only PUSH's and CALL's write memory. -/
theorem onlyPushAndCallWriteMemory : Obligations.OnlyPushAndCallWriteMemory := by
  intro i s t hexec
  have hwrite (hsp : s.sp ≠ 0) (v : Byte) (x : Nat) (hx : x ≠ (s.reg .r7).toNat - 1) :
      Memory.read (Memory.write s.mem (s.sp - 1).toNat v) x = Memory.read s.mem x :=
    Memory.read_write_other _ _ (by rwa [sp_sub_one_toNat hsp])
  have hsame (h : SameMemory s t) : SameMemoryBut ((s.reg .r7).toNat - 1) s t ∧
      ((∀ a, i ≠ .push a) → (∀ a, i ≠ .call a) → SameMemory s t) := ⟨fun x _ => h x, fun _ _ => h⟩
  cases ExecShape.of_exec hexec with
  | pushes a ra ha hsp =>
    refine ⟨fun x hx => ?_, fun hpush => absurd rfl (hpush a)⟩
    rw [State.finish_mem]; exact hwrite hsp _ x hx
  | calls a ra ha hret hsp => exact ⟨hwrite hsp _, fun _ hcall => absurd rfl (hcall a)⟩
  | writes | compares | prints | halts | pops => exact hsame fun x => by rw [State.finish_mem]; rfl
  | _ => exact hsame fun _ => rfl

/-- Settles O46: the PUSH writes the cell at the next PC, and the next fetch reads it. -/
theorem nextFetchSeesThePushedByte : Obligations.NextFetchSeesThePushedByte := by
  intro s a ra hrun ha hat hsp
  have hstep := stepRunsTheDecodedInstruction (.push a) s hrun hat
  obtain ⟨t, hpush, -, hcell, -, -, hpc, -, hrunt, -⟩ :=
    (pushStoresBelowTheStackPointer { s with ir := Instr.opcode Config.params (.push a) } a ra ha).1 (by
      show (s.reg .r7).toNat ≠ 0; omega)
  have hlt : (s.reg .r7).toNat < 256 := (s.reg .r7).isLt
  have hpct : t.pc.toNat = s.pc.toNat + 2 := by
    rw [hpc, BitVec.toNat_add, Nat.mod_eq_of_lt (by simp; omega)]; rfl
  obtain ⟨u, hfetch, hir⟩ := (fetchLoadsTheInstructionRegister t (hrunt.trans hrun)).2 (by omega)
  refine ⟨t, u, hstep.trans hpush, hfetch, hpct, ?_⟩
  rw [hir, hpct, show s.pc.toNat + 2 = (s.reg .r7).toNat - 1 by omega]
  exact hcell

end Sys2Proof
end

section
/-! What a jump does with a valid operand (spec/44_branch.md), and the obligations on the jumps. -/

namespace Sys2Proof.Machine

theorem onlyPc_setPc (s : State) (w : Word9) : OnlyPc w s (s.setPc w) :=
  ⟨fun _ => rfl, fun _ => rfl, ⟨rfl, rfl, rfl⟩, ⟨rfl, rfl, rfl⟩, rfl⟩

/-- A jump on a valid operand moves PC only: to its register where it is taken, else past its two bytes (R170, R173). -/
theorem movesPcTo_of_jumpIf {i : Instr} {a : Byte} {ra : Reg} {taken : Bool} {s : State} (ha : a.toNat = ra.index)
    (hexec : exec i s = jumpIf taken i a s) (hsets : setsPc (i.opcode Config.params) = true) (hops : i.operands = [a]) :
    MovesPcTo i (if taken = true then (s.reg ra).zext9 else s.pc + 2) s := by
  have hadvance : s.advance i = s.setPc (s.pc + 2) := by
    rw [State.advance, State.addressAfter, Instr.size_eq, hops, BitVec.ofNat_add, BitVec.ofNat_toNat, BitVec.setWidth_eq]
    rfl
  have hjump : exec i s = .next (if taken then s.setPc (s.reg ra).zext9 else s.advance i) := by
    rw [hexec, ← State.finish_sets_pc (if taken then s.setPc (s.reg ra).zext9 else s.advance i) i hsets]
    exact withReg_of_index ha s _
  refine ⟨_, hjump, ?_⟩
  cases taken with
  | true => exact onlyPc_setPc s _
  | false => exact hadvance ▸ onlyPc_setPc s _

theorem movesPcTo_jmp {a : Byte} {ra : Reg} (ha : a.toNat = ra.index) (s : State) :
    MovesPcTo (.jmp a) (s.reg ra).zext9 s :=
  movesPcTo_of_jumpIf (taken := true) ha rfl (setsPc_opcode (.jmp a)) rfl

theorem movesPcTo_jeq {a : Byte} {ra : Reg} (ha : a.toNat = ra.index) (s : State) :
    MovesPcTo (.jeq a) (if s.equalFlag = true then (s.reg ra).zext9 else s.pc + 2) s :=
  movesPcTo_of_jumpIf ha rfl (setsPc_opcode (.jeq a)) rfl

theorem movesPcTo_jne {a : Byte} {ra : Reg} (ha : a.toNat = ra.index) (s : State) :
    MovesPcTo (.jne a) (if s.equalFlag = true then s.pc + 2 else (s.reg ra).zext9) s := by
  have h := movesPcTo_of_jumpIf (i := .jne a) (taken := !s.equalFlag) (s := s) ha rfl (setsPc_opcode (.jne a)) rfl
  cases he : s.equalFlag <;> simpa [he] using h

/-- The E flag a compare leaves says whether its operands were equal (R123). -/
theorem compareFlags_getLsbD_zero (x y : Byte) : (compareFlags x y).getLsbD 0 = decide (x.toNat = y.toNat) := by
  obtain ⟨hxy, h⟩ | ⟨hyx, h⟩ | ⟨hxy, h⟩ := compareFlags_cases x y <;> rw [h]
  · simp [hxy]
  · rw [decide_eq_false (by omega)]; rfl
  · rw [decide_eq_false (by omega)]; rfl

end Sys2Proof.Machine

namespace Sys2Proof

open Sys2Proof.Machine

/-- Settles O40: where the E flag has the value the jump asks for, the jump goes to its register. -/
theorem takenJumpsGoToTheRegister : Obligations.TakenJumpsGoToTheRegister := by
  refine fun s a ra ha => ⟨movesPcTo_jmp ha s, fun he => ?_, fun he => ?_⟩
  · have h := movesPcTo_jeq ha s
    rwa [if_pos (show s.equalFlag = true from he)] at h
  · have h := movesPcTo_jne ha s
    rwa [if_neg (by rw [show s.equalFlag = false from he]; decide)] at h

/-- Settles O41: the jump not taken is the advance by 2, and from 254 the next fetch is past memory. -/
theorem notTakenJumpsFallThrough : Obligations.NotTakenJumpsFallThrough := by
  intro s a ra i ha hi
  have hsize : i.size Config.params = 2 := by obtain ⟨rfl, -⟩ | ⟨rfl, -⟩ := hi <;> exact Instr.size_eq _
  have hmoves : MovesPcTo i (s.pc + 2) s := by
    obtain ⟨rfl, he⟩ | ⟨rfl, he⟩ := hi
    · have h := movesPcTo_jeq ha s
      rwa [if_neg (by rw [show s.equalFlag = false from he]; decide)] at h
    · have h := movesPcTo_jne ha s
      rwa [if_pos (show s.equalFlag = true from he)] at h
  obtain ⟨t, hexec, honly⟩ := hmoves
  refine ⟨hsize, t, hexec, hsize ▸ honly, fun h254 hrun => ?_⟩
  obtain ⟨-, -, -, ⟨hrunt, -⟩, hpc⟩ := honly
  have h256 : t.pc.toNat = 256 := by rw [hpc, BitVec.toNat_add, h254]; rfl
  obtain ⟨u, hstep, hfault⟩ := (fetchLoadsTheInstructionRegister t (hrunt.trans hrun)).1 h256.ge
  exact ⟨h256, u, hstep, h256 ▸ hfault⟩

/-- Settles O42: the CMP leaves E as the comparison of its operands, and the other registers alone. -/
theorem conditionalJumpSeesTheLastCompare : Obligations.ConditionalJumpSeesTheLastCompare := by
  intro s a b c ra rb rc ha hb hc
  have hcmp : ∃ t, exec (.cmp a b) s = .next t ∧ (t.equalFlag = true ↔ (s.reg ra).toNat = (s.reg rb).toNat) ∧
      t.pc = s.pc + 3 ∧ t.reg rc = s.reg rc := by
    refine ⟨_, exec_cmp_of_index ha hb s, ?_, finish_cmp_pc s _ a b, by simp⟩
    rw [State.equalFlag, State.finish_fl, State.setFl_fl, compareFlags_masked, compareFlags_getLsbD_zero, decide_eq_true_iff]
  obtain ⟨t, hexec, hequal, hpc, hreg⟩ := hcmp
  have hpast : s.pc + 3 + 2 = s.pc + 5 := BitVec.add_assoc s.pc 3 2
  have hjeq := movesPcTo_jeq hc t
  have hjne := movesPcTo_jne hc t
  simp only [hequal, hpc, hreg, hpast] at hjeq hjne
  exact ⟨t, hexec, hjeq, hjne⟩

end Sys2Proof
end

section
/-! Which parts of the state an instruction does not read: FL, and the registers it neither names nor uses as SP
(spec/10_state.md sections 1 and 2), and the obligations on them. -/

namespace Sys2Proof.Machine

/-! ### Updates an instruction does not see -/

theorem usesReg_of_mem {i : Instr} {b : Byte} {r : Reg} (hb : b ∈ i.regOperands) (hr : b.toNat = r.index) :
    usesReg i r = true := by
  unfold usesReg
  rw [Bool.or_eq_true, List.any_eq_true]
  exact .inl ⟨b, hb, beq_iff_eq.mpr hr⟩

/-- The update `g` of a state keeps PC, memory and the registers that `uses` marks, and the operations of the
instructions, on those registers, commute with it. -/
structure Unseen (uses : Reg → Bool) (g : State → State) : Prop where
  pc : ∀ s, (g s).pc = s.pc
  mem : ∀ s, (g s).mem = s.mem
  reg : ∀ s q, uses q = true → (g s).reg q = s.reg q
  setReg : ∀ s q v, uses q = true → (g s).setReg q v = g (s.setReg q v)
  setPc : ∀ s w, (g s).setPc w = g (s.setPc w)
  memWrite : ∀ s a v, (g s).memWrite a v = g (s.memWrite a v)
  output : ∀ s k v, (g s).output k v = g (s.output k v)
  halt : ∀ s, (g s).halt = g s.halt
  raise : ∀ s c w, (g s).raise c w = g (s.raise c w)

/-- The outcome with its next state updated. -/
def updateNext (g : State → State) : Result → Result
  | .next t => .next (g t)
  | .fault r => .fault r
  | .refused r => .refused r

/-! An update that an instruction does not see passes through the forms its meaning is made of. -/

section
variable {i : Instr} {g : State → State} (hg : Unseen (usesReg i) g) {a b : Byte}
include hg

theorem Unseen.advance (s : State) : (g s).advance i = g (s.advance i) := by
  rw [State.advance, State.addressAfter, hg.pc, hg.setPc]
  rfl

theorem Unseen.finish (s : State) : (g s).finish i = g (s.finish i) := by
  unfold State.finish
  split
  · rfl
  · exact hg.advance s

theorem Unseen.withReg (ha : a ∈ i.regOperands) (s : State) {k k' : Reg → Result}
    (hk : ∀ r, usesReg i r = true → k' r = updateNext g (k r)) :
    Machine.withReg a (g s) k' = updateNext g (Machine.withReg a s k) := by
  obtain ⟨r, hr⟩ | hinvalid := Reg.of_byte_cases a
  · rw [withReg_of_index hr, withReg_of_index hr, hk r (usesReg_of_mem ha hr)]
  · rw [withReg_of_invalid hinvalid, withReg_of_invalid hinvalid, hg.raise]
    rfl

theorem Unseen.withTwoRegs (ha : a ∈ i.regOperands) (hb : b ∈ i.regOperands) (s : State) {k k' : Reg → Reg → Result}
    (hk : ∀ ra rb, usesReg i ra = true → usesReg i rb = true → k' ra rb = updateNext g (k ra rb)) :
    Machine.withTwoRegs a b (g s) k' = updateNext g (Machine.withTwoRegs a b s k) :=
  hg.withReg ha s fun ra hra => hg.withReg hb s fun rb hrb => hk ra rb hra hrb

theorem Unseen.writes (ha : a ∈ i.regOperands) (s : State) {f f' : Reg → Byte} (hf : ∀ r, usesReg i r = true → f' r = f r) :
    Machine.withReg a (g s) (fun ra => .next (((g s).setReg ra (f' ra)).finish i)) =
      updateNext g (Machine.withReg a s fun ra => .next ((s.setReg ra (f ra)).finish i)) :=
  hg.withReg ha s fun r hr => by rw [hf r hr, hg.setReg s r _ hr, hg.finish]; rfl

theorem Unseen.twoRegAlu (hops : i.regOperands = [a, b]) (f : Byte → Byte → Byte) (s : State) :
    Machine.twoRegAlu i a b f (g s) = updateNext g (Machine.twoRegAlu i a b f s) :=
  hg.withTwoRegs (by simp [hops]) (by simp [hops]) s fun ra rb hra hrb => by
    rw [hg.reg s ra hra, hg.reg s rb hrb, hg.setReg s ra _ hra, hg.finish]
    rfl

theorem Unseen.twoRegDivide (hops : i.regOperands = [a, b]) (f : Byte → Byte → Byte) (s : State) :
    Machine.twoRegDivide i a b f (g s) = updateNext g (Machine.twoRegDivide i a b f s) :=
  hg.withTwoRegs (by simp [hops]) (by simp [hops]) s fun ra rb hra hrb => by
    rw [hg.reg s ra hra, hg.reg s rb hrb, hg.setReg s ra _ hra, hg.finish, hg.raise]
    split <;> rfl

theorem Unseen.printReg (hops : i.regOperands = [a]) (k : OutputKind) (s : State) :
    Machine.printReg i k a (g s) = updateNext g (Machine.printReg i k a s) :=
  hg.withReg (by simp [hops]) s fun ra hra => by
    rw [hg.reg s ra hra, hg.output, hg.finish]
    rfl

theorem Unseen.jumpIf (hops : i.regOperands = [a]) (taken : Bool) (s : State) :
    Machine.jumpIf taken i a (g s) = updateNext g (Machine.jumpIf taken i a s) :=
  hg.withReg (by simp [hops]) s fun ra hra => by
    rw [hg.reg s ra hra, hg.setPc, hg.advance, ← apply_ite g, hg.finish]
    rfl

theorem Unseen.push (hsp : usesReg i .r7 = true) (s : State) (v : Byte) : (g s).push v = (s.push v).map g := by
  have hreg : (g s).sp = s.sp := hg.reg s .r7 hsp
  have hset : (g s).setSp (s.sp - 1) = g (s.setSp (s.sp - 1)) := hg.setReg s .r7 _ hsp
  rw [State.push, State.push, hreg, hset, hg.memWrite]
  split <;> rfl

theorem Unseen.pop (hsp : usesReg i .r7 = true) (s : State) : (g s).pop = s.pop.map fun vt => (vt.1, g vt.2) := by
  have hreg : (g s).sp = s.sp := hg.reg s .r7 hsp
  have hset : (g s).setSp (s.sp + 1) = g (s.setSp (s.sp + 1)) := hg.setReg s .r7 _ hsp
  rw [State.pop, State.pop, hreg, hset, State.memRead, hg.mem]
  split <;> rfl

end

/-! ### The instructions -/

section
variable {g : State → State} {a : Byte}

theorem Unseen.execPush (hg : Unseen (usesReg (.push a)) g) (s : State) :
    Machine.execPush a (g s) = updateNext g (Machine.execPush a s) :=
  hg.withReg (List.mem_singleton_self a) s fun ra hra => by
    rw [hg.reg s ra hra, hg.push (by simp [usesReg])]
    cases s.push (s.reg ra) with
    | none => exact congrArg Host.Outcome.next (hg.raise s _ _)
    | some t => exact congrArg Host.Outcome.next (hg.finish t)

theorem Unseen.execPop (hg : Unseen (usesReg (.pop a)) g) (s : State) :
    Machine.execPop a (g s) = updateNext g (Machine.execPop a s) :=
  hg.withReg (List.mem_singleton_self a) s fun ra hra => by
    rw [hg.pop (by simp [usesReg])]
    cases s.pop with
    | none => exact congrArg Host.Outcome.next (hg.raise s _ _)
    | some vt => exact congrArg Host.Outcome.next (by rw [hg.setReg _ ra _ hra, hg.finish])

theorem Unseen.execCall (hg : Unseen (usesReg (.call a)) g) (s : State) :
    Machine.execCall a (g s) = updateNext g (Machine.execCall a s) :=
  hg.withReg (List.mem_singleton_self a) s fun ra hra => by
    have hret : (g s).addressAfter (.call a) = s.addressAfter (.call a) := by
      rw [State.addressAfter, hg.pc, State.addressAfter]
    simp only [hret, hg.reg s ra hra, hg.push (by simp [usesReg]) s]
    split
    · exact congrArg Host.Outcome.next (hg.raise s _ _)
    · cases s.push (BitVec.ofNat 8 (s.addressAfter (.call a))) with
      | none => exact congrArg Host.Outcome.next (hg.raise s _ _)
      | some t => exact congrArg Host.Outcome.next (by rw [hg.setPc, hg.finish])

theorem Unseen.execRet (hg : Unseen (usesReg .ret) g) (s : State) :
    Machine.execRet (g s) = updateNext g (Machine.execRet s) := by
  rw [Machine.execRet, Machine.execRet, hg.pop (by simp [usesReg])]
  cases s.pop with
  | none => exact congrArg Host.Outcome.next (hg.raise s _ _)
  | some vt => exact congrArg Host.Outcome.next (by rw [hg.setPc, hg.finish])

end

/-- An instruction is the same with and without an update it does not see. FL is written by CMP and read by JEQ and JNE,
so these ask the update to respect it. -/
theorem exec_of_unseen {i : Instr} {g : State → State} (hg : Unseen (usesReg i) g) (s : State)
    (hcmp : (∀ a b, i ≠ .cmp a b) ∨ ∀ v, (g s).setFl v = g (s.setFl v))
    (hcond : (∀ a, i ≠ .jeq a ∧ i ≠ .jne a) ∨ (g s).equalFlag = s.equalFlag) :
    exec i (g s) = updateNext g (exec i s) := by
  cases i with
  | hlt => exact congrArg Host.Outcome.next (by rw [hg.halt, hg.finish])
  | ret => exact hg.execRet s
  | push a => exact hg.execPush s
  | pop a => exact hg.execPop s
  | call a => exact hg.execCall s
  | prn a => exact hg.printReg rfl .dec s
  | pra a => exact hg.printReg rfl .chr s
  | prast a => exact hg.printReg rfl .stars s
  | jmp a => exact hg.jumpIf rfl true s
  | jeq a =>
    have he := hcond.resolve_left fun h => (h a).1 rfl
    rw [exec, exec, execJeq, execJeq, he]
    exact hg.jumpIf rfl s.equalFlag s
  | jne a =>
    have he := hcond.resolve_left fun h => (h a).2 rfl
    rw [exec, exec, execJne, execJne, he]
    exact hg.jumpIf rfl (!s.equalFlag) s
  | not a => exact hg.writes (List.mem_singleton_self a) s fun r hr => by rw [hg.reg s r hr]
  | ldi a imm => exact hg.writes (List.mem_singleton_self a) s fun _ _ => rfl
  | addi a imm => exact hg.writes (List.mem_singleton_self a) s fun r hr => by rw [hg.reg s r hr]
  | cmp a b =>
    have hfl := hcmp.resolve_left fun h => h a b rfl
    refine hg.withTwoRegs (by simp [Instr.regOperands]) (by simp [Instr.regOperands]) s fun ra rb hra hrb => ?_
    rw [hg.reg s ra hra, hg.reg s rb hrb, hfl, hg.finish]
    rfl
  | div a b => exact hg.twoRegDivide rfl _ s
  | mod a b => exact hg.twoRegDivide rfl _ s
  | add a b => exact hg.twoRegAlu rfl _ s
  | sub a b => exact hg.twoRegAlu rfl _ s
  | mul a b => exact hg.twoRegAlu rfl _ s
  | and a b => exact hg.twoRegAlu rfl _ s
  | or a b => exact hg.twoRegAlu rfl _ s
  | xor a b => exact hg.twoRegAlu rfl _ s
  | shl a b => exact hg.twoRegAlu rfl (fun x y => x <<< y.toNat) s
  | shr a b => exact hg.twoRegAlu rfl (fun x y => x >>> y.toNat) s

/-! ### FL -/

/-- `FL <- v`, without the mask of the hardwired bits. -/
def State.withFl (v : Byte) (s : State) : State := { s with fl := v }

theorem unseen_withFl (uses : Reg → Bool) (v : Byte) : Unseen uses (State.withFl v) :=
  ⟨fun _ => rfl, fun _ => rfl, fun _ _ _ => rfl, fun _ _ _ _ => rfl, fun _ _ => rfl, fun _ _ _ => rfl, fun _ _ _ => rfl,
    fun _ => rfl, fun _ _ _ => rfl⟩

/-- CMP does not read the FL it replaces (R123). -/
theorem exec_cmp_withFl (a b v : Byte) (s : State) :
    (∃ t, exec (.cmp a b) s = .next t ∧ exec (.cmp a b) (s.withFl v) = .next t) ∨
    ∃ w : Byte, exec (.cmp a b) s = .next (s.raise .invalidRegister w.zext9) ∧
      exec (.cmp a b) (s.withFl v) = .next ((s.withFl v).raise .invalidRegister w.zext9) := by
  obtain ⟨ra, ha⟩ | ha := Reg.of_byte_cases a
  · obtain ⟨rb, hb⟩ | hb := Reg.of_byte_cases b
    · exact .inl ⟨_, exec_cmp_of_index ha hb s, exec_cmp_of_index ha hb (s.withFl v)⟩
    · exact .inr ⟨b, (withReg_of_index ha s _).trans (withReg_of_invalid hb s _),
        (withReg_of_index ha _ _).trans (withReg_of_invalid hb _ _)⟩
  · exact .inr ⟨a, withReg_of_invalid ha s _, withReg_of_invalid ha _ _⟩

/-! ### Registers -/

/-- Writes of two registers commute. -/
theorem State.setReg_comm (s : State) {q r : Reg} (h : q ≠ r) (v w : Byte) :
    (s.setReg r v).setReg q w = (s.setReg q w).setReg r v := by
  have hregs : (s.regs.set r v).set q w = (s.regs.set q w).set r v := RegFile.ext_get fun x => by
    by_cases hq : x = q
    · rw [hq, RegFile.get_set_self, RegFile.get_set_other _ _ h, RegFile.get_set_self]
    · rw [RegFile.get_set_other _ _ hq]
      by_cases hr : x = r
      · rw [hr, RegFile.get_set_self, RegFile.get_set_self]
      · rw [RegFile.get_set_other _ _ hr, RegFile.get_set_other _ _ hr, RegFile.get_set_other _ _ hq]
  exact congrArg (fun f => { s with regs := f }) hregs

theorem ne_of_unused {uses : Reg → Bool} {r q : Reg} (hr : uses r = false) (hq : uses q = true) : q ≠ r := by
  rintro rfl
  cases hr.symm.trans hq

theorem unseen_setReg {uses : Reg → Bool} {r : Reg} (hr : uses r = false) (v : Byte) :
    Unseen uses (fun s => s.setReg r v) where
  pc _ := rfl
  mem _ := rfl
  reg s _ hq := State.reg_setReg_other s v (ne_of_unused hr hq)
  setReg s _ w hq := State.setReg_comm s (ne_of_unused hr hq) v w
  setPc _ _ := rfl
  memWrite _ _ _ := rfl
  output _ _ _ := rfl
  halt _ := rfl
  raise _ _ _ := rfl

/-- An instruction writes only the registers it names, and SP where it is a stack instruction. -/
theorem ExecShape.reg_eq_of_unused {s t : State} {i : Instr} (h : ExecShape s i t) {r : Reg} (hr : usesReg i r = false) :
    t.reg r = s.reg r := by
  have hother {q : Reg} (hq : usesReg i q = true) : r ≠ q := (ne_of_unused hr hq).symm
  cases h with
  | writes a ra v hop ha =>
    rw [State.finish_reg, State.reg_setReg_other _ _ (hother (usesReg_of_mem (List.mem_of_head? hop) ha))]
  | pushes =>
    rw [State.finish_reg, State.memWrite_reg, State.reg_setSp_other _ _ (hother (by simp [usesReg]))]
  | pops a ra ha =>
    rw [State.finish_reg, State.reg_setReg_other _ _ (hother (usesReg_of_mem (List.mem_singleton_self a) ha)),
      State.reg_setSp_other _ _ (hother (by simp [usesReg]))]
  | calls | returns => exact State.reg_setSp_other _ _ (hother (by simp [usesReg]))
  | compares | prints | halts => rw [State.finish_reg]; rfl
  | _ => rfl

end Sys2Proof.Machine

namespace Sys2Proof

open Sys2Proof.Machine

/-- Settles O43: another FL is an update that no instruction but CMP, JEQ and JNE can see; CMP replaces FL, and JEQ and
JNE read E. -/
theorem onlyTheEqualFlagIsRead : Obligations.OnlyTheEqualFlagIsRead := by
  intro i s t v hexec hcond
  by_cases hcmp : ∃ a b, i = .cmp a b
  · obtain ⟨a, b, rfl⟩ := hcmp
    obtain ⟨u, hu, hv⟩ | ⟨w, hu, hv⟩ := exec_cmp_withFl a b v s
    · cases hu.symm.trans hexec
      exact ⟨t, hv, rfl⟩
    · cases hu.symm.trans hexec
      exact ⟨_, hv, rfl⟩
  · have hnot : ∀ a b, i ≠ .cmp a b := fun a b h => hcmp ⟨a, b, h⟩
    have h := exec_of_unseen (unseen_withFl _ v) s (.inl hnot) hcond
    rw [hexec] at h
    exact ⟨t.withFl v, h, rfl⟩

/-- Settles O44: another value in an unused register is an update that the instruction does not see, and no shape of its
next state writes the register. -/
theorem unusedRegistersDoNotMatter : Obligations.UnusedRegistersDoNotMatter := by
  intro i s t r v hunused hexec
  refine ⟨?_, (ExecShape.of_exec hexec).reg_eq_of_unused hunused⟩
  have h := exec_of_unseen (unseen_setReg hunused v) s (.inr fun _ => rfl) (.inr rfl)
  rwa [hexec] at h

end Sys2Proof
end
